-- ==== Sys2Proof/Word.lean ====
section
/-! DEFINITION. The word types of the machine: what the spec treats as bits (00_scope section 5.1: every value is unsigned). -/

namespace Sys2Proof

/-- A 4-bit instruction field: a register index `X`, `Y`, a row count `N`, a logical key code (30_encoding R92). -/
abbrev Nibble := BitVec 4

/-- A byte of memory, a general register, a timer (00_scope R5 XLEN, R6). -/
abbrev Byte := BitVec 8

/-- The 12-bit address immediate `NNN` (30_encoding R92). -/
abbrev Imm12 := BitVec 12

/-- A 16-bit address: `pc`, `sp`, `I` (00_scope R6). -/
abbrev Addr := BitVec 16

/-- An instruction word `op`, `op[15:8]` the first byte fetched (30_encoding R90, R92). -/
abbrev OpWord := BitVec 16

end Sys2Proof
end

