-- ==== Sys2Proof/Syntax.lean ====
section
/-! DEFINITION. The instructions: one constructor per row of spec/opcode_table.json (30_encoding R96). -/

namespace Sys2Proof

/-- An instruction with its operand fields (30_encoding R92). The nibble that families 5 and 9 ignore (R97)
and the word of an undefined opcode (R98) are kept, so that an instruction determines its word. -/
inductive Instr where
  /-- 00E0 `CLS` -/
  | cls
  /-- 00EE `RET` -/
  | ret
  /-- 1NNN `JP NNN` -/
  | jp (nnn : Imm12)
  /-- 2NNN `CALL NNN` -/
  | call (nnn : Imm12)
  /-- 3XNN `SE Vx, NN` -/
  | seImm (x : Nibble) (nn : Byte)
  /-- 4XNN `SNE Vx, NN` -/
  | sneImm (x : Nibble) (nn : Byte)
  /-- 5XY0 `SE Vx, Vy`, low nibble ignored -/
  | seReg (x y ignored : Nibble)
  /-- 6XNN `LD Vx, NN` -/
  | ldImm (x : Nibble) (nn : Byte)
  /-- 7XNN `ADD Vx, NN` -/
  | addImm (x : Nibble) (nn : Byte)
  /-- 8XY0 `LD Vx, Vy` -/
  | ldReg (x y : Nibble)
  /-- 8XY1 `OR Vx, Vy` -/
  | orReg (x y : Nibble)
  /-- 8XY2 `AND Vx, Vy` -/
  | andReg (x y : Nibble)
  /-- 8XY3 `XOR Vx, Vy` -/
  | xorReg (x y : Nibble)
  /-- 8XY4 `ADD Vx, Vy` -/
  | addReg (x y : Nibble)
  /-- 8XY5 `SUB Vx, Vy` -/
  | subReg (x y : Nibble)
  /-- 8XY6 `SHR Vx, Vy` -/
  | shr (x y : Nibble)
  /-- 8XY7 `SUBN Vx, Vy` -/
  | subn (x y : Nibble)
  /-- 8XYE `SHL Vx, Vy` -/
  | shl (x y : Nibble)
  /-- 9XY0 `SNE Vx, Vy`, low nibble ignored -/
  | sneReg (x y ignored : Nibble)
  /-- ANNN `LD I, NNN` -/
  | ldI (nnn : Imm12)
  /-- BNNN `JP V0, NNN` -/
  | jpV0 (nnn : Imm12)
  /-- CXNN `RND Vx, NN` -/
  | rnd (x : Nibble) (nn : Byte)
  /-- DXYN `DRW Vx, Vy, N` -/
  | drw (x y n : Nibble)
  /-- EX9E `SKP Vx` -/
  | skp (x : Nibble)
  /-- EXA1 `SKNP Vx` -/
  | sknp (x : Nibble)
  /-- FX07 `LD Vx, DT` -/
  | ldVxDt (x : Nibble)
  /-- FX0A `LD Vx, K` -/
  | ldVxK (x : Nibble)
  /-- FX15 `LD DT, Vx` -/
  | ldDtVx (x : Nibble)
  /-- FX18 `LD ST, Vx` -/
  | ldStVx (x : Nibble)
  /-- FX1E `ADD I, Vx` -/
  | addI (x : Nibble)
  /-- FX29 `LD F, Vx` -/
  | ldF (x : Nibble)
  /-- FX33 `LD B, Vx` -/
  | ldB (x : Nibble)
  /-- FX55 `LD [I], Vx` -/
  | storeRegs (x : Nibble)
  /-- FX65 `LD Vx, [I]` -/
  | loadRegs (x : Nibble)
  /-- any other word, `UNDEF` -/
  | undef (w : OpWord)
  deriving DecidableEq, Repr

end Sys2Proof
end

