-- ==== Sys2Proof/WellFormed.lean ====
section
/-! DEFINITION. Which instruction terms stand for a word. Every operand field holds any value of its width (10_state R21, 30_encoding R94), so the one check is on UNDEF: its word is one of 30_encoding R98's table. -/

namespace Sys2Proof

/-- The words of 30_encoding R98's table, written from that table: family 0 but for two words, seven low
nibbles of family 8, and the sub-opcodes families E and F do not have. -/
def undefinedWord (w : OpWord) : Bool :=
  let family : Nibble := w.extractLsb' 12 4
  let low : Nibble := w.extractLsb' 0 4
  let sub : Byte := w.extractLsb' 0 8
  if family = 0x0 then !([0x00E0, 0x00EE] : List OpWord).contains w
  else if family = 0x8 then ([0x8, 0x9, 0xA, 0xB, 0xC, 0xD, 0xF] : List Nibble).contains low
  else if family = 0xE then !([0x9E, 0xA1] : List Byte).contains sub
  else if family = 0xF then
    !([0x07, 0x0A, 0x15, 0x18, 0x1E, 0x29, 0x33, 0x55, 0x65] : List Byte).contains sub
  else false

/-- An instruction term that some word encodes. -/
def WellFormed : Instr → Bool
  | .undef w => undefinedWord w
  | _ => true

end Sys2Proof
end

