-- ==== Sys2Proof/Decode.lean ====
section
/-! DEFINITION. Decoding (30_encoding R95), the encoder, and the opcode map with match and mask (30_encoding R96, R102). -/

namespace Sys2Proof

/-! ## The two bytes of a 16-bit value -/

/-- The more significant byte of a 16-bit value. -/
def hiByte (v : BitVec 16) : Byte := v.extractLsb' 8 8

/-- The less significant byte of a 16-bit value. -/
def loByte (v : BitVec 16) : Byte := v.extractLsb' 0 8

/-! ## Fields of a word (30_encoding R92) -/

/-- `F = op[15:12]` -/
def opF (w : OpWord) : Nibble := w.extractLsb' 12 4
/-- `X = op[11:8]` -/
def opX (w : OpWord) : Nibble := w.extractLsb' 8 4
/-- `Y = op[7:4]` -/
def opY (w : OpWord) : Nibble := w.extractLsb' 4 4
/-- `N = op[3:0]` -/
def opN (w : OpWord) : Nibble := w.extractLsb' 0 4
/-- `NN = op[7:0]` -/
def opNN (w : OpWord) : Byte := w.extractLsb' 0 8
/-- `NNN = op[11:0]` -/
def opNNN (w : OpWord) : Imm12 := w.extractLsb' 0 12

/-! ## Decoding (30_encoding R95): total on all 65536 words -/

/-- Family 0 dispatches on the whole word. -/
def decodeFamily0 (w : OpWord) : Instr :=
  if w = 0x00E0 then .cls else if w = 0x00EE then .ret else .undef w

/-- Family 8 dispatches on `N`. -/
def decodeFamily8 (w : OpWord) : Instr :=
  match opN w with
  | 0x0 => .ldReg (opX w) (opY w)
  | 0x1 => .orReg (opX w) (opY w)
  | 0x2 => .andReg (opX w) (opY w)
  | 0x3 => .xorReg (opX w) (opY w)
  | 0x4 => .addReg (opX w) (opY w)
  | 0x5 => .subReg (opX w) (opY w)
  | 0x6 => .shr (opX w) (opY w)
  | 0x7 => .subn (opX w) (opY w)
  | 0xE => .shl (opX w) (opY w)
  | _ => .undef w

/-- Family E dispatches on `NN`. -/
def decodeFamilyE (w : OpWord) : Instr :=
  match opNN w with
  | 0x9E => .skp (opX w)
  | 0xA1 => .sknp (opX w)
  | _ => .undef w

/-- Family F dispatches on `NN`. -/
def decodeFamilyF (w : OpWord) : Instr :=
  match opNN w with
  | 0x07 => .ldVxDt (opX w)
  | 0x0A => .ldVxK (opX w)
  | 0x15 => .ldDtVx (opX w)
  | 0x18 => .ldStVx (opX w)
  | 0x1E => .addI (opX w)
  | 0x29 => .ldF (opX w)
  | 0x33 => .ldB (opX w)
  | 0x55 => .storeRegs (opX w)
  | 0x65 => .loadRegs (opX w)
  | _ => .undef w

/-- The decode procedure of 30_encoding R95; the split of the ambiguous families is decision D6 (log 12). -/
def decode (w : OpWord) : Instr :=
  match opF w with
  | 0x0 => decodeFamily0 w
  | 0x1 => .jp (opNNN w)
  | 0x2 => .call (opNNN w)
  | 0x3 => .seImm (opX w) (opNN w)
  | 0x4 => .sneImm (opX w) (opNN w)
  | 0x5 => .seReg (opX w) (opY w) (opN w)
  | 0x6 => .ldImm (opX w) (opNN w)
  | 0x7 => .addImm (opX w) (opNN w)
  | 0x8 => decodeFamily8 w
  | 0x9 => .sneReg (opX w) (opY w) (opN w)
  | 0xA => .ldI (opNNN w)
  | 0xB => .jpV0 (opNNN w)
  | 0xC => .rnd (opX w) (opNN w)
  | 0xD => .drw (opX w) (opY w) (opN w)
  | 0xE => decodeFamilyE w
  | _ => decodeFamilyF w

/-- Why a list of bytes holds no instruction. -/
inductive DecodeError where
  /-- fewer than the two bytes every instruction has (30_encoding R90) -/
  | truncated
  deriving DecidableEq, Repr

/-- Decode the instruction a list of bytes begins with, most significant byte first (30_encoding R90), and
give the bytes after it; it rejects, by name, only a list too short to hold an instruction. -/
def decodeBytes : List Byte → Except DecodeError (Instr × List Byte)
  | msb :: lsb :: rest => .ok (decode (msb ++ lsb), rest)
  | _ => .error .truncated

/-! ## Encoding, from the formats of 30_encoding R93 and the encodings of R96 -/

/-- The word of an instruction: its format's fixed bits and fields, most significant first. -/
def encode : Instr → OpWord
  | .cls => 0x00E0
  | .ret => 0x00EE
  | .jp nnn => 0x1#4 ++ nnn
  | .call nnn => 0x2#4 ++ nnn
  | .seImm x nn => 0x3#4 ++ x ++ nn
  | .sneImm x nn => 0x4#4 ++ x ++ nn
  | .seReg x y n => 0x5#4 ++ x ++ y ++ n
  | .ldImm x nn => 0x6#4 ++ x ++ nn
  | .addImm x nn => 0x7#4 ++ x ++ nn
  | .ldReg x y => 0x8#4 ++ x ++ y ++ 0x0#4
  | .orReg x y => 0x8#4 ++ x ++ y ++ 0x1#4
  | .andReg x y => 0x8#4 ++ x ++ y ++ 0x2#4
  | .xorReg x y => 0x8#4 ++ x ++ y ++ 0x3#4
  | .addReg x y => 0x8#4 ++ x ++ y ++ 0x4#4
  | .subReg x y => 0x8#4 ++ x ++ y ++ 0x5#4
  | .shr x y => 0x8#4 ++ x ++ y ++ 0x6#4
  | .subn x y => 0x8#4 ++ x ++ y ++ 0x7#4
  | .shl x y => 0x8#4 ++ x ++ y ++ 0xE#4
  | .sneReg x y n => 0x9#4 ++ x ++ y ++ n
  | .ldI nnn => 0xA#4 ++ nnn
  | .jpV0 nnn => 0xB#4 ++ nnn
  | .rnd x nn => 0xC#4 ++ x ++ nn
  | .drw x y n => 0xD#4 ++ x ++ y ++ n
  | .skp x => 0xE#4 ++ x ++ 0x9E#8
  | .sknp x => 0xE#4 ++ x ++ 0xA1#8
  | .ldVxDt x => 0xF#4 ++ x ++ 0x07#8
  | .ldVxK x => 0xF#4 ++ x ++ 0x0A#8
  | .ldDtVx x => 0xF#4 ++ x ++ 0x15#8
  | .ldStVx x => 0xF#4 ++ x ++ 0x18#8
  | .addI x => 0xF#4 ++ x ++ 0x1E#8
  | .ldF x => 0xF#4 ++ x ++ 0x29#8
  | .ldB x => 0xF#4 ++ x ++ 0x33#8
  | .storeRegs x => 0xF#4 ++ x ++ 0x55#8
  | .loadRegs x => 0xF#4 ++ x ++ 0x65#8
  | .undef w => w

/-- The bytes of a word as memory holds them, most significant first (30_encoding R90). -/
def wordBytes (w : OpWord) : List Byte := [hiByte w, loByte w]

/-! ## The opcode map (30_encoding R96) -/

/-- One row of the opcode map: the mnemonic as spec/opcode_table.json has it, the fixed bits and their mask. -/
structure OpcodeRow where
  mnemonic : String
  value : OpWord
  mask : OpWord
  deriving DecidableEq, Repr

/-- A word fits a row when its masked bits are the row's fixed bits. -/
def OpcodeRow.fits (r : OpcodeRow) (w : OpWord) : Bool := w &&& r.mask == r.value

/-- The 34 defined rows of 30_encoding R96, in the table's order. -/
def opcodeMap : List OpcodeRow :=
  [⟨"CLS", 0x00E0, 0xFFFF⟩, ⟨"RET", 0x00EE, 0xFFFF⟩, ⟨"JP_NNN", 0x1000, 0xF000⟩,
   ⟨"CALL_NNN", 0x2000, 0xF000⟩, ⟨"SE_Vx__NN", 0x3000, 0xF000⟩, ⟨"SNE_Vx__NN", 0x4000, 0xF000⟩,
   ⟨"SE_Vx__Vy", 0x5000, 0xF000⟩, ⟨"LD_Vx__NN", 0x6000, 0xF000⟩, ⟨"ADD_Vx__NN", 0x7000, 0xF000⟩] ++
  [⟨"LD_Vx__Vy", 0x8000, 0xF00F⟩, ⟨"OR_Vx__Vy", 0x8001, 0xF00F⟩, ⟨"AND_Vx__Vy", 0x8002, 0xF00F⟩,
   ⟨"XOR_Vx__Vy", 0x8003, 0xF00F⟩, ⟨"ADD_Vx__Vy", 0x8004, 0xF00F⟩, ⟨"SUB_Vx__Vy", 0x8005, 0xF00F⟩,
   ⟨"SHR_Vx__Vy", 0x8006, 0xF00F⟩, ⟨"SUBN_Vx__Vy", 0x8007, 0xF00F⟩, ⟨"SHL_Vx__Vy", 0x800E, 0xF00F⟩] ++
  [⟨"SNE_Vx__Vy", 0x9000, 0xF000⟩, ⟨"LD_I__NNN", 0xA000, 0xF000⟩, ⟨"JP_V0__NNN", 0xB000, 0xF000⟩,
   ⟨"RND_Vx__NN", 0xC000, 0xF000⟩, ⟨"DRW_Vx__Vy__N", 0xD000, 0xF000⟩, ⟨"SKP_Vx", 0xE09E, 0xF0FF⟩,
   ⟨"SKNP_Vx", 0xE0A1, 0xF0FF⟩] ++
  [⟨"LD_Vx__DT", 0xF007, 0xF0FF⟩, ⟨"LD_Vx__K", 0xF00A, 0xF0FF⟩, ⟨"LD_DT__Vx", 0xF015, 0xF0FF⟩,
   ⟨"LD_ST__Vx", 0xF018, 0xF0FF⟩, ⟨"ADD_I__Vx", 0xF01E, 0xF0FF⟩, ⟨"LD_F__Vx", 0xF029, 0xF0FF⟩,
   ⟨"LD_B__Vx", 0xF033, 0xF0FF⟩, ⟨"LD__I___Vx", 0xF055, 0xF0FF⟩, ⟨"LD_Vx___I", 0xF065, 0xF0FF⟩]

/-- The mnemonic of spec/opcode_table.json that each constructor stands for. -/
def Instr.mnemonic : Instr → String
  | .cls => "CLS" | .ret => "RET" | .jp _ => "JP_NNN" | .call _ => "CALL_NNN"
  | .seImm _ _ => "SE_Vx__NN" | .sneImm _ _ => "SNE_Vx__NN" | .seReg _ _ _ => "SE_Vx__Vy"
  | .ldImm _ _ => "LD_Vx__NN" | .addImm _ _ => "ADD_Vx__NN" | .ldReg _ _ => "LD_Vx__Vy"
  | .orReg _ _ => "OR_Vx__Vy" | .andReg _ _ => "AND_Vx__Vy" | .xorReg _ _ => "XOR_Vx__Vy"
  | .addReg _ _ => "ADD_Vx__Vy" | .subReg _ _ => "SUB_Vx__Vy" | .shr _ _ => "SHR_Vx__Vy"
  | .subn _ _ => "SUBN_Vx__Vy" | .shl _ _ => "SHL_Vx__Vy" | .sneReg _ _ _ => "SNE_Vx__Vy"
  | .ldI _ => "LD_I__NNN" | .jpV0 _ => "JP_V0__NNN" | .rnd _ _ => "RND_Vx__NN"
  | .drw _ _ _ => "DRW_Vx__Vy__N" | .skp _ => "SKP_Vx" | .sknp _ => "SKNP_Vx"
  | .ldVxDt _ => "LD_Vx__DT" | .ldVxK _ => "LD_Vx__K" | .ldDtVx _ => "LD_DT__Vx"
  | .ldStVx _ => "LD_ST__Vx" | .addI _ => "ADD_I__Vx" | .ldF _ => "LD_F__Vx" | .ldB _ => "LD_B__Vx"
  | .storeRegs _ => "LD__I___Vx" | .loadRegs _ => "LD_Vx___I" | .undef _ => "UNDEF"

/-! ## The host's probe -/

/-- The instruction the decoder reads from an instruction whose bits, numbered as the opcode table numbers
them, are `w`; every bit at or above `nbits` is 0. The one word is laid out most significant byte first. -/
def decodeTableWord (nbits w : Nat) : Option Instr :=
  match decodeBytes (wordBytes (BitVec.ofNat 16 (w % 2 ^ nbits))) with
  | .ok (i, _) => some i
  | .error _ => none

end Sys2Proof
end

