-- ==== Sys2Proof/Config.lean ====
section
/-! DEFINITION. What is fixed for the machine and is not state (10_state R45): the sizes of 00_scope R5 and the two values the spec leaves OPEN; its other parameters are in Machine/Params.lean. -/

namespace Sys2Proof

/-- `MEM_SIZE`: bytes of memory (00_scope R5). -/
def Config.memSize : Nat := 4096

/-- `DISP_W`: display width in pixels (00_scope R5). -/
abbrev Config.dispW : Nat := 64

/-- `DISP_H`: display height in pixels (00_scope R5). -/
abbrev Config.dispH : Nat := 32

/-- `OOB_READ`, a FREE VALUE: the byte the n-th draw gives when it is a read outside memory
(20_memory R62, decision D3). Nothing constrains it. Log 4, log 5; safe. -/
opaque Config.oobRead : Nat → Byte

/-- `RAND`, a FREE VALUE: the byte the n-th draw gives when it is CXNN's (44 R180, decision D12).
Nothing constrains it. Log 4, log 6; safe. -/
opaque Config.randByte : Nat → Byte

@[simp] theorem Config.memSize_eq : Config.memSize = 4096 := rfl
@[simp] theorem Config.dispW_eq : Config.dispW = 64 := rfl
@[simp] theorem Config.dispH_eq : Config.dispH = 32 := rfl

end Sys2Proof
end

