-- ==== Sys2Proof/Machine/Params.lean ====
section
/-! DEFINITION. The parameters of 00_scope R5 that the source does not fix by a number of its own, at the values the spec gives them. -/

namespace Sys2Proof

/-- `START_ADDR`: reset value of pc; sp resets to one less (00_scope R5, 70_reset R231). -/
def Config.startAddr : Addr := 0x200

/-- The constraint on START_ADDR, "`1 <= START_ADDR <= MEM_SIZE - 2`" (00_scope R5, 70_reset R231): sp starts at
START_ADDR - 1 without wrapping, and the first instruction lies inside memory. -/
abbrev Config.ValidStart (start : Addr) : Prop := 1 ≤ start.toNat ∧ start.toNat ≤ Config.memSize - 2

/-- `FONT_BASE`: where the font is copied at reset (00_scope R5). -/
def Config.fontBase : Addr := 0x000

/-- `FONT_TABLE`: 16 digits of 5 bytes, digit `d` at offset `5 * d` (10_state R38).
The bytes are the spec's general knowledge (decision D10), PRESUMED there; unsafe: log 2. -/
def Config.fontTable : List Byte :=
  [0xF0, 0x90, 0x90, 0x90, 0xF0] ++ [0x20, 0x60, 0x20, 0x20, 0x70] ++
  [0xF0, 0x10, 0xF0, 0x80, 0xF0] ++ [0xF0, 0x10, 0xF0, 0x10, 0xF0] ++
  [0x90, 0x90, 0xF0, 0x10, 0x10] ++ [0xF0, 0x80, 0xF0, 0x10, 0xF0] ++
  [0xF0, 0x80, 0xF0, 0x90, 0xF0] ++ [0xF0, 0x10, 0x20, 0x40, 0x40] ++
  [0xF0, 0x90, 0xF0, 0x90, 0xF0] ++ [0xF0, 0x90, 0xF0, 0x10, 0xF0] ++
  [0xF0, 0x90, 0xF0, 0x90, 0x90] ++ [0xE0, 0x90, 0xE0, 0x90, 0xE0] ++
  [0xF0, 0x80, 0x80, 0x80, 0xF0] ++ [0xE0, 0x90, 0x90, 0x90, 0xE0] ++
  [0xF0, 0x80, 0xF0, 0x80, 0xF0] ++ [0xF0, 0x80, 0xF0, 0x80, 0x80]

/-- `KEYMAP`: logical key and its physical code, a lower-case 8-bit character code (10_state R35).
The code values are decision D18; unsafe: log 10. -/
def Config.keymap : List (Nibble × Byte) :=
  [(0x1, 0x31), (0x2, 0x32), (0x3, 0x33), (0xC, 0x34)] ++
  [(0x4, 0x71), (0x5, 0x77), (0x6, 0x65), (0xD, 0x72)] ++
  [(0x7, 0x61), (0x8, 0x73), (0x9, 0x64), (0xE, 0x66)] ++
  [(0xA, 0x7A), (0x0, 0x78), (0xB, 0x63), (0xF, 0x76)]

/-- The canonical START_ADDR meets its constraint. -/
theorem Config.startAddr_valid : Config.ValidStart Config.startAddr := by decide

/-- The constraint on FONT_BASE, "`FONT_BASE + 80 <= MEM_SIZE`" (00_scope R5). -/
theorem Config.fontBase_fits : Config.fontBase.toNat + Config.fontTable.length ≤ Config.memSize := by decide

theorem Config.fontTable_length : Config.fontTable.length = 80 := rfl

/-- The 16 logical keys and the 16 physical codes are each without repeats (00_scope R5's constraint). -/
theorem Config.keymap_distinct :
    (Config.keymap.map Prod.fst).Nodup ∧ (Config.keymap.map Prod.snd).Nodup ∧ Config.keymap.length = 16 := by
  decide

end Sys2Proof
end

