-- ==== Sys2Proof/Machine/State.lean ====
section
/-! DEFINITION. The state of the machine (10_state R43: the complete list), its reset value (10_state R40), and the reasons a step can stop: none (60_exceptions R210). -/

namespace Sys2Proof.Machine

/-- The reasons a step stops with a fault. There is none: "No instruction and no host operation raises an
exception" (60_exceptions R210), so the type is empty. -/
inductive Fault where
  deriving DecidableEq, Repr

/-- The reasons an instruction has no meaning. -/
inductive Refusal where
  /-- Raised by `exec` alone, for an instruction that is not modelled yet; no arm raises it (every instruction
  has its meaning). Stopping is safe. -/
  | notModelled (mnemonic : String)
  deriving DecidableEq, Repr

/-- Main memory: (address, byte) pairs in the canonical form of `Memory.wf` (20_memory R60, log 3). -/
abbrev Memory := List Host.Cell

/-- The display: `disp[y][x]`, row 0 at the top, column 0 at the left (10_state R37). -/
abbrev Display := Vector (Vector Bool 64) 32

/-- The machine state: "a single owned aggregate" (10_state R43). -/
structure State where
  /-- `x[0]` to `x[15]`, V0 to VF (10_state R20); `x[15]` is the flag (R22) -/
  x : Vector Byte 16
  /-- `I`, the address register (10_state R27) -/
  iReg : Addr
  /-- the program counter (10_state R28) -/
  pc : Addr
  /-- the stack pointer (10_state R32) -/
  sp : Addr
  /-- main memory (10_state R34) -/
  mem : Memory
  /-- `DT`, the delay timer (10_state R36) -/
  dt : Byte
  /-- `ST`, the sound timer (10_state R36) -/
  st : Byte
  /-- the display (10_state R37) -/
  disp : Display
  /-- `key[0x0]` to `key[0xF]`, true = down (10_state R39) -/
  key : Vector Bool 16
  /-- `KA`, the activity latch, true = 1 = "up" (10_state R41) -/
  ka : Bool
  /-- the MODEL'S OWN field: how many free values have been drawn (log 4) -/
  draws : Nat
  deriving DecidableEq, Repr

/-- The machine right after construction with START_ADDR = `start`, for the start addresses 00_scope R5 allows
(10_state R40, 70_reset R230, R231).
Memory lists nothing: an unlisted address reads as its reset content (log 3). Registers, I, timers, display,
keys and KA are 0 by the table of R40 (decisions D8, D11; log 1). -/
def State.resetAt (start : Addr) (_valid : Config.ValidStart start) : State where
  x := Vector.replicate 16 0
  iReg := 0
  pc := start
  sp := start - 1
  mem := []
  dt := 0
  st := 0
  disp := Vector.replicate 32 (Vector.replicate 64 false)
  key := Vector.replicate 16 false
  ka := false
  draws := 0

/-- The machine right after reset, START_ADDR at its canonical value (00_scope R5). -/
def State.reset : State := State.resetAt Config.startAddr Config.startAddr_valid

end Sys2Proof.Machine
end

