-- ==== Sys2Proof/Machine/Ops.lean ====
section
/-! DEFINITION. The named operations over memory, registers, stack, display and keys: the primitives of 00_scope section 5.3 and 20_memory. Taking an exception is not among them: this hardware has no exception, trap entry or trap return (60_exceptions R210, R215). -/

namespace Sys2Proof.Machine

/-! ## Memory as a list of cells (log 3) -/

/-- What an unlisted address reads as: its content at reset, a font byte or zero (10_state R40, 70_reset R233). -/
def Memory.unlisted (a : Nat) : Byte :=
  if Config.fontBase.toNat ≤ a then (Config.fontTable[a - Config.fontBase.toNat]?).getD 0 else 0

/-- The byte a memory holds at an address. -/
def Memory.get : Memory → Nat → Byte
  | [], a => Memory.unlisted a
  | (b, v) :: m, a => if a = b then v else Memory.get m a

/-- Put a cell at its place in the rising order. -/
def Memory.insert (a : Nat) (v : Byte) : Memory → Memory
  | [] => [(a, v)]
  | (b, w) :: m => if a < b then (a, v) :: (b, w) :: m else (b, w) :: Memory.insert a v m

/-- The memory with no cell at an address. -/
def Memory.erase (a : Nat) (m : Memory) : Memory := m.filter (fun c => c.1 != a)

/-- The memory with byte `v` at address `a`, in canonical form; an address outside memory is not written
("otherwise nothing is written and no state changes", 20_memory R63). -/
def Memory.put (m : Memory) (a : Nat) (v : Byte) : Memory :=
  if a < Config.memSize then
    if v = Memory.unlisted a then Memory.erase a m else Memory.insert a v (Memory.erase a m)
  else m

/-- The canonical form: addresses strictly rising, each inside memory, no cell equal to what its address
reads as unlisted (log 3). -/
abbrev Memory.wf (m : Memory) : Prop :=
  m.Pairwise (fun c d => c.1 < d.1) ∧ ∀ c ∈ m, c.1 < Config.memSize ∧ c.2 ≠ Memory.unlisted c.1

/-! ## One home for every piece of state -/

/-- `x[r]` (10_state R20, R21) -/
def State.reg (s : State) (r : Nibble) : Byte := s.x[r.toNat]
/-- `x[r] <- v` -/
def State.setReg (s : State) (r : Nibble) (v : Byte) : State := { s with x := s.x.set r.toNat v }
/-- `I <- v` -/
def State.setI (s : State) (v : Addr) : State := { s with iReg := v }
/-- `pc <- v` -/
def State.setPc (s : State) (v : Addr) : State := { s with pc := v }
/-- `sp <- v` -/
def State.setSp (s : State) (v : Addr) : State := { s with sp := v }
/-- all of `mem` -/
def State.setMem (s : State) (m : Memory) : State := { s with mem := m }
/-- `DT <- v` -/
def State.setDt (s : State) (v : Byte) : State := { s with dt := v }
/-- `ST <- v` -/
def State.setSt (s : State) (v : Byte) : State := { s with st := v }
/-- all of `disp` -/
def State.setDisp (s : State) (d : Display) : State := { s with disp := d }
/-- `key[k]`, true = down (10_state R39) -/
def State.keyIsDown (s : State) (k : Nibble) : Bool := s.key[k.toNat]
/-- `key[k] <- b` -/
def State.setKey (s : State) (k : Nibble) (b : Bool) : State := { s with key := s.key.set k.toNat b }
/-- `KA <- b`, true = "up" (10_state R41) -/
def State.setKa (s : State) (b : Bool) : State := { s with ka := b }
/-- the model's counter of free values (log 4) -/
def State.setDraws (s : State) (n : Nat) : State := { s with draws := n }

/-- The index of VF, the flag register (10_state R22). -/
def vf : Nibble := 0xF

/-! ## Memory access (20_memory section 2) -/

/-- `MemRead(addr, 1)` (20_memory R62): the byte in memory; outside memory `OOB_READ`, a fresh free value. -/
def State.memRead (s : State) (a : Addr) : Byte × State :=
  if a.toNat < Config.memSize then (s.mem.get a.toNat, s)
  else (Config.oobRead s.draws, s.setDraws (s.draws + 1))

/-- `MemWrite(addr, 1, v)` (20_memory R63): stored inside memory, dropped outside. -/
def State.memWrite (s : State) (a : Addr) (v : Byte) : State := s.setMem (s.mem.put a.toNat v)

/-- Instruction fetch, `MemRead(pc, 2)` (20_memory R64): two byte reads, most significant byte first. -/
def State.fetch (s : State) : OpWord × State :=
  let msb := s.memRead s.pc
  let lsb := msb.2.memRead (s.pc + 1)
  (msb.1 ++ lsb.1, lsb.2)

/-- "advancing program_counter by 2 as part of decoding" and "skip next" (10_state R29, 40_flow R130),
modulo 2^16 (10_state R31). -/
def State.advancePc (s : State) : State := s.setPc (s.pc + 2)

/-- FX0A's rewind: `pc <- pc - 2` (44 R184). -/
def State.rewindPc (s : State) : State := s.setPc (s.pc - 2)

/-- "skip next if" a condition holds (40_flow R130). -/
def State.skipIf (s : State) (c : Bool) : State := if c then s.advancePc else s

/-! ## The stack (20_memory section 3; the placement of the bytes is decision D2, log 11) -/

/-- `MemWrite(sp, 1, v)` and then `sp <- sp - 1`. -/
def State.push8 (s : State) (v : Byte) : State := (s.memWrite s.sp v).setSp (s.sp - 1)

/-- `Push16(v)` (20_memory R66): high byte first, at the higher address. -/
def State.push16 (s : State) (v : Addr) : State := (s.push8 (hiByte v)).push8 (loByte v)

/-- `sp <- sp + 1` and then `MemRead(sp, 1)`. -/
def State.pop8 (s : State) : Byte × State := (s.setSp (s.sp + 1)).memRead (s.sp + 1)

/-- `Pop16()` (20_memory R67): low byte first. -/
def State.pop16 (s : State) : Addr × State :=
  let lo := s.pop8
  let hi := lo.2.pop8
  (hi.1 ++ lo.1, hi.2)

/-! ## Free values (log 4) -/

/-- `draw RAND` (44 R180): a fresh free value. -/
def State.drawRand (s : State) : Byte × State := (Config.randByte s.draws, s.setDraws (s.draws + 1))

/-! ## Block copies (42 R164, R165), in rising order of the register number -/

/-- `MemWrite(base + i, 1, x[i])` for the first `n` registers. -/
def State.storeFrom (base : Addr) : Nat → State → State
  | 0, s => s
  | n + 1, s =>
    let t := State.storeFrom base n s
    t.memWrite (base + BitVec.ofNat 16 n) (t.reg (BitVec.ofNat 4 n))

/-- `x[i] <- MemRead(base + i, 1)` for the first `n` registers. -/
def State.loadFrom (base : Addr) : Nat → State → State
  | 0, s => s
  | n + 1, s =>
    let t := State.loadFrom base n s
    let b := t.memRead (base + BitVec.ofNat 16 n)
    b.2.setReg (BitVec.ofNat 4 n) b.1

/-! ## Display (43_display) -/

/-- `disp[y][x]` -/
def Display.pixel (d : Display) (x : Fin 64) (y : Fin 32) : Bool := d[y][x]

/-- `disp[y][x] <- b` -/
def Display.setPixel (d : Display) (x : Fin 64) (y : Fin 32) (b : Bool) : Display := d.set y (d[y].set x b)

/-- every pixel 0 (43 R170) -/
def Display.clear : Display := Vector.replicate 32 (Vector.replicate 64 false)

/-- `disp[y][x]` of a state -/
def State.pixel (s : State) (x : Fin 64) (y : Fin 32) : Bool := Display.pixel s.disp x y

/-- XOR the `n` leftmost bits of a sprite row into display row `y` from column `x0` (43 R171, R172): bit 7
is the leftmost pixel (decision D9, log 8), a column right of the edge is skipped (R173), and the result
tells whether a pixel turned off (R174). -/
def Display.drawBits (row : Byte) (x0 : Nat) (y : Fin 32) : Nat → Display → Display × Bool
  | 0, d => (d, false)
  | k + 1, d =>
    let p := Display.drawBits row x0 y k d
    if h : x0 + k < Config.dispW then
      let bit := row.getLsbD (7 - k)
      let old := Display.pixel p.1 ⟨x0 + k, h⟩ y
      (Display.setPixel p.1 ⟨x0 + k, h⟩ y (old ^^ bit), p.2 || (bit && old))
    else p

/-- Draw the first `n` rows of the sprite at `base`, origin (`x0`, `y0`) (43 R171): a row below the bottom
edge is neither read nor drawn (R173); the result tells whether any pixel turned off (R174). -/
def State.drawRows (x0 y0 : Nat) (base : Addr) : Nat → State → State × Bool
  | 0, s => (s, false)
  | r + 1, s =>
    let p := State.drawRows x0 y0 base r s
    if h : y0 + r < Config.dispH then
      let b := p.1.memRead (base + BitVec.ofNat 16 r)
      let q := Display.drawBits b.1 x0 ⟨y0 + r, h⟩ 8 b.2.disp
      (b.2.setDisp q.1, p.2 || q.2)
    else p

/-! ## Keys (44_timer_key_random) -/

/-- The least `i < n`, counted from 16 - `n`, with key `i` up: the search of FX0A (44 R184). -/
def State.leastUpFrom (s : State) : Nat → Option Nibble
  | 0 => none
  | n + 1 =>
    let k := BitVec.ofNat 4 (15 - n)
    if s.keyIsDown k then State.leastUpFrom s n else some k

/-- "the lowest-indexed key `i` such that `key[i]` is currently up" (44 R184), if there is one. -/
def State.leastUpKey (s : State) : Option Nibble := s.leastUpFrom 16

end Sys2Proof.Machine
end

