-- ==== Sys2Proof/Machine/Flags.lean ====
section
/-! DEFINITION. The flag computations (10_state R23), each a function of operands read before any write (R24), and the one shape in which result and flag are written (41 R152). -/

namespace Sys2Proof.Machine

/-- A flag as VF holds it: 0 or 1, zero-extended (10_state R23). -/
def flagByte (c : Bool) : Byte := if c then 1 else 0

/-- 8XY4: "1 if result < original VX (overflow), else 0" (41 R146) -/
def carryFlag (a b : Byte) : Bool := decide ((a + b).toNat < a.toNat)

/-- 8XY5 and, with the operands swapped, 8XY7: "1 if original VX >= original VY (no borrow), else 0" (41 R147, R149) -/
def noBorrowFlag (a b : Byte) : Bool := decide (b.toNat ≤ a.toNat)

/-- 8XY6: "low bit of original VY" (41 R148) -/
def lowBitFlag (b : Byte) : Bool := b.getLsbD 0

/-- 8XYE: "high bit of original VY" (41 R150) -/
def highBitFlag (b : Byte) : Bool := b.getLsbD 7

/-- Write a result and its flag: result first, flag last, so that with X = 0xF VF holds the flag
(41 R152; 10_state R25, decision D5, log 7). -/
def State.writeFlagged (s : State) (x : Nibble) (result : Byte) (flag : Bool) : State :=
  (s.setReg x result).setReg vf (flagByte flag)

end Sys2Proof.Machine
end

