-- ==== Sys2Proof/Machine/Operands.lean ====
section
/-! DEFINITION. The operand forms: zero-extended immediates (30_encoding R94), the one addressing mode (42 R166), the key select (44 R187), the sprite origin (43 R171). -/

namespace Sys2Proof.Machine

/-- `zext_16(NNN)` (30_encoding R94) -/
def zextImm12 (nnn : Imm12) : Addr := nnn.setWidth 16

/-- `zext_16(x[X])` (00_scope section 5.1) -/
def zextByte (b : Byte) : Addr := b.setWidth 16

/-- The addressing mode `I + i`, 16 bits modulo 2^16 (42 R166, decision D4, log 14). -/
def State.iPlus (s : State) (i : Nat) : Addr := s.iReg + BitVec.ofNat 16 i

/-- The number of registers FX55 and FX65 copy: `X + 1` (30_encoding R94). -/
def regCount (x : Nibble) : Nat := x.toNat + 1

/-- The key EX9E and EXA1 test: the low four bits of the register (44 R187, decision D7, log 14). -/
def keySelect (v : Byte) : Nibble := v.extractLsb' 0 4

/-- A logical key code zero-extended to a register's width (44 R184). -/
def zextKey (k : Nibble) : Byte := k.setWidth 8

/-- The sprite's origin column, "modulo grid width ... only at the sprite's origin" (43 R171, R173). -/
def originX (v : Byte) : Nat := v.toNat % Config.dispW

/-- The sprite's origin row (43 R171, R173). -/
def originY (v : Byte) : Nat := v.toNat % Config.dispH

/-- The address FX29 gives: `FONT_BASE + zext_16(v) * 5`, no mask (42 R162, decision D21, log 14). -/
def fontAddr (v : Byte) : Addr := Config.fontBase + zextByte v * 5

/-- The hundreds, tens and ones digits of a byte (42 R163). -/
def bcdHundreds (v : Byte) : Byte := BitVec.ofNat 8 (v.toNat / 100)
/-- tens -/
def bcdTens (v : Byte) : Byte := BitVec.ofNat 8 (v.toNat / 10 % 10)
/-- ones -/
def bcdOnes (v : Byte) : Byte := BitVec.ofNat 8 (v.toNat % 10)

end Sys2Proof.Machine
end

