-- ==== Sys2Proof/Machine/DisplayInstr.lean ====
section
/-! DEFINITION. The display instructions (43_display). -/

namespace Sys2Proof.Machine

/-- 00E0 (43 R170): every pixel 0, VF not touched -/
def execCls (s : State) : Host.Outcome State Fault Refusal :=
  .next (s.setDisp Display.clear)

/-- DXYN (43 R171 to R175): the coordinates are read before VF is written; VF <- collision, always -/
def execDrw (x y n : Nibble) (s : State) : Host.Outcome State Fault Refusal :=
  let p := State.drawRows (originX (s.reg x)) (originY (s.reg y)) s.iReg n.toNat s
  .next (p.1.setReg vf (flagByte p.2))

end Sys2Proof.Machine
end

