-- ==== Sys2Proof/Machine/Flow.lean ====
section
/-! DEFINITION. Control transfer, compare and skip, undefined opcodes (40_flow). `pc` is already `pc0 + 2` when a meaning starts (10_state R29). -/

namespace Sys2Proof.Machine

/-- 00EE (40_flow R120) -/
def execRet (s : State) : Host.Outcome State Fault Refusal :=
  let p := s.pop16
  .next (p.2.setPc p.1)

/-- 1NNN (40_flow R121) -/
def execJp (nnn : Imm12) (s : State) : Host.Outcome State Fault Refusal :=
  .next (s.setPc (zextImm12 nnn))

/-- 2NNN (40_flow R122): the pushed value is the already advanced pc -/
def execCall (nnn : Imm12) (s : State) : Host.Outcome State Fault Refusal :=
  .next ((s.push16 s.pc).setPc (zextImm12 nnn))

/-- BNNN (40_flow R123): always `x[0]`; the sum is exact, never reduced modulo 4096 (decision D4, log 14) -/
def execJpV0 (nnn : Imm12) (s : State) : Host.Outcome State Fault Refusal :=
  .next (s.setPc (zextImm12 nnn + zextByte (s.reg 0)))

/-- 3XNN (40_flow R124) -/
def execSeImm (x : Nibble) (nn : Byte) (s : State) : Host.Outcome State Fault Refusal :=
  .next (s.skipIf (s.reg x == nn))

/-- 4XNN (40_flow R125) -/
def execSneImm (x : Nibble) (nn : Byte) (s : State) : Host.Outcome State Fault Refusal :=
  .next (s.skipIf (s.reg x != nn))

/-- 5XY0 (40_flow R126) -/
def execSeReg (x y : Nibble) (s : State) : Host.Outcome State Fault Refusal :=
  .next (s.skipIf (s.reg x == s.reg y))

/-- 9XY0 (40_flow R127) -/
def execSneReg (x y : Nibble) (s : State) : Host.Outcome State Fault Refusal :=
  .next (s.skipIf (s.reg x != s.reg y))

/-- UNDEF (40_flow R128): a no-op; decoding has advanced pc -/
def execUndef (s : State) : Host.Outcome State Fault Refusal := .next s

end Sys2Proof.Machine
end

