-- ==== Sys2Proof/Machine/IndexMemory.lean ====
section
/-! DEFINITION. The address register and the memory instructions (42_index_memory). None writes VF as a flag. -/

namespace Sys2Proof.Machine

/-- ANNN (42 R160) -/
def execLdI (nnn : Imm12) (s : State) : Host.Outcome State Fault Refusal :=
  .next (s.setI (zextImm12 nnn))

/-- FX1E (42 R161): modulo 2^16, never masked to 12 bits (decision D4, log 14) -/
def execAddI (x : Nibble) (s : State) : Host.Outcome State Fault Refusal :=
  .next (s.setI (s.iReg + zextByte (s.reg x)))

/-- FX29 (42 R162) -/
def execLdF (x : Nibble) (s : State) : Host.Outcome State Fault Refusal :=
  .next (s.setI (fontAddr (s.reg x)))

/-- FX33 (42 R163): hundreds, tens, ones at I, I + 1, I + 2; I unchanged -/
def execLdB (x : Nibble) (s : State) : Host.Outcome State Fault Refusal :=
  let v := s.reg x
  .next (((s.memWrite (s.iPlus 0) (bcdHundreds v)).memWrite (s.iPlus 1) (bcdTens v)).memWrite
    (s.iPlus 2) (bcdOnes v))

/-- FX55 (42 R164): X + 1 bytes, then `I <- I + X + 1` even where bytes were dropped -/
def execStoreRegs (x : Nibble) (s : State) : Host.Outcome State Fault Refusal :=
  .next ((State.storeFrom s.iReg (regCount x) s).setI (s.iPlus (regCount x)))

/-- FX65 (42 R165): X + 1 bytes, then `I <- I + X + 1` -/
def execLoadRegs (x : Nibble) (s : State) : Host.Outcome State Fault Refusal :=
  .next ((State.loadFrom s.iReg (regCount x) s).setI (s.iPlus (regCount x)))

end Sys2Proof.Machine
end

