-- ==== Sys2Proof/Machine/Input.lean ====
section
/-! DEFINITION. The random, key and timer instructions (44_timer_key_random). None writes VF as a flag. -/

namespace Sys2Proof.Machine

/-- CXNN (44 R180): a fresh free byte masked by NN (log 6) -/
def execRnd (x : Nibble) (nn : Byte) (s : State) : Host.Outcome State Fault Refusal :=
  let d := s.drawRand
  .next (d.2.setReg x (d.1 &&& nn))

/-- EX9E (44 R181, R187) -/
def execSkp (x : Nibble) (s : State) : Host.Outcome State Fault Refusal :=
  .next (s.skipIf (s.keyIsDown (keySelect (s.reg x))))

/-- EXA1 (44 R182, R187) -/
def execSknp (x : Nibble) (s : State) : Host.Outcome State Fault Refusal :=
  .next (s.skipIf (!s.keyIsDown (keySelect (s.reg x))))

/-- FX07 (44 R183; decision D17, log 15) -/
def execLdVxDt (x : Nibble) (s : State) : Host.Outcome State Fault Refusal :=
  .next (s.setReg x s.dt)

/-- FX0A (44 R184, R188): completes when KA = 1 and a key is up, storing the least such key and consuming the
latch (decision D8, log 9); else rewinds pc, so that the next step runs it again (decision D24) -/
def execLdVxK (x : Nibble) (s : State) : Host.Outcome State Fault Refusal :=
  match s.ka, s.leastUpKey with
  | true, some k => .next ((s.setReg x (zextKey k)).setKa false)
  | _, _ => .next s.rewindPc

/-- FX15 (44 R185; decision D17, log 15) -/
def execLdDtVx (x : Nibble) (s : State) : Host.Outcome State Fault Refusal :=
  .next (s.setDt (s.reg x))

/-- FX18 (44 R186; decision D17, log 15) -/
def execLdStVx (x : Nibble) (s : State) : Host.Outcome State Fault Refusal :=
  .next (s.setSt (s.reg x))

end Sys2Proof.Machine
end

