-- ==== Sys2Proof/Machine/Step.lean ====
section
/-! DEFINITION. One step (45_host_operations R191): fetch, advance pc by 2, decode, one handler. -/

namespace Sys2Proof.Machine

/-- `step()`: "executes exactly one instruction per call" (45 R191). -/
def step (s : State) : Host.Outcome State Fault Refusal :=
  let f := s.fetch
  exec (decode f.1) f.2.advancePc

/-- The state with the instruction whose bits are `w` (bit 0 least significant, every bit at or above `nbits`
zero) stored where `step` fetches: its two bytes at pc and pc + 1 (20_memory R64; log 17). -/
def State.withFetchWord (s : State) (nbits w : Nat) : State :=
  let op : OpWord := BitVec.ofNat 16 (w % 2 ^ nbits)
  (s.memWrite s.pc (hiByte op)).memWrite (s.pc + 1) (loByte op)

end Sys2Proof.Machine
end

