-- ==== Sys2Proof/Machine/HostOps.lean ====
section
/-! DEFINITION. The host-facing operations (45_host_operations), each one atomic transaction (R190, decision D1), and the seven together. -/

namespace Sys2Proof.Machine

/-- What an operation returns to the host: nothing, `ok` or `rejected`, or the pixels of a framebuffer read. -/
inductive Reply where
  | none
  | ok
  | rejected
  | pixels (ps : List Bool)
  deriving DecidableEq, Repr

/-! ## Raw memory write (R192) -/

/-- `mem[address + i] <- bytes[i]` for every byte of the list. -/
def Memory.putAll (m : Memory) (a : Nat) : List Byte → Memory
  | [] => m
  | b :: bs => Memory.putAll (m.put a b) (a + 1) bs

/-- `write(address, bytes)` (45 R192): rejected whole when the exact sum `address + len` exceeds MEM_SIZE
(decision D15, log 16); the host's `bytes` may have any length. -/
def hostWrite (address : Addr) (bytes : List Byte) (s : State) : State × Reply :=
  if address.toNat + bytes.length > Config.memSize then (s, .rejected)
  else (s.setMem (s.mem.putAll address.toNat bytes), .ok)

/-! ## Timer tick (R193) -/

/-- One count of a timer: down by 1, held at 0. -/
def countDown (t : Byte) : Byte := if t.toNat > 0 then t - 1 else t

/-- `tick_timers()` (45 R193) -/
def hostTick (s : State) : State := (s.setDt (countDown s.dt)).setSt (countDown s.st)

/-! ## Key events (R194, R195, R199) -/

/-- The logical key that answers to a physical code, if one does (10_state R35). -/
def logicalKey (code : Byte) : Option Nibble :=
  (Config.keymap.find? (fun p => p.2 == code)).map Prod.fst

/-- A key-down event of a logical key: the key down, the latch "down" (45 R194, R199; decision D19, log 16). -/
def keyDownLogical (k : Nibble) (s : State) : State := (s.setKey k true).setKa false

/-- A key-up event of a logical key: the key up, the latch "up" (45 R195, R199; decision D19, log 16). -/
def keyUpLogical (k : Nibble) (s : State) : State := (s.setKey k false).setKa true

/-- `key_down(code)` (45 R194): "A code not present in the map is ignored". -/
def hostKeyDown (code : Byte) (s : State) : State :=
  match logicalKey code with
  | some k => keyDownLogical k s
  | none => s

/-- `key_up(code)` (45 R195) -/
def hostKeyUp (code : Byte) (s : State) : State :=
  match logicalKey code with
  | some k => keyUpLogical k s
  | none => s

/-! ## Framebuffer read (R196; order and clamp are decision D13, log 16) -/

/-- The pixel at position `p` of the row-major order: `disp[p / DISP_W][p % DISP_W]`. -/
def State.linearPixel (s : State) (p : Nat) : Bool :=
  if h : p / 64 < 32 then s.pixel ⟨p % 64, Nat.mod_lt p (by decide)⟩ ⟨p / 64, h⟩ else false

/-- The start position of a read: the offsets wrapped modulo the grid's dimensions. -/
def readStart (xOffset yOffset : Nat) : Nat :=
  yOffset % Config.dispH * Config.dispW + xOffset % Config.dispW

/-- How many pixels a read copies: clamped at the last pixel. -/
def readCount (xOffset yOffset length : Nat) : Nat :=
  min length (Config.dispW * Config.dispH - readStart xOffset yOffset)

/-- `read_display`: the elements `buffer[0..n-1]` it fills (45 R196). No state is written. -/
def hostReadDisplay (xOffset yOffset length : Nat) (s : State) : List Bool :=
  (List.range (readCount xOffset yOffset length)).map
    (fun j => s.linearPixel (readStart xOffset yOffset + j))

/-- The host's buffer after a read: "elements from `n` on are untouched" (45 R196). -/
def fillBuffer (buffer pixels : List Bool) : List Bool := pixels ++ buffer.drop pixels.length

/-! ## Start-address configuration (R197) -/

/-- `set_start(address)` (45 R197): pc only, sp is not touched (decision D14, log 16). -/
def hostSetStart (address : Addr) (s : State) : State × Reply :=
  if address.toNat ≥ Config.memSize then (s, .rejected) else (s.setPc address, .ok)

/-! ## The seven operations together (R190, R198) -/

/-- A move of the host: every operation it may perform, with every argument (45 R198). -/
inductive Op where
  | step
  | write (address : Addr) (bytes : List Byte)
  | tickTimers
  | keyDown (code : Byte)
  | keyUp (code : Byte)
  | readDisplay (xOffset yOffset length : Nat)
  | setStart (address : Addr)
  deriving DecidableEq, Repr

/-- One operation: the state after it and what the host is told; only `step` could stop, and does not (60 R210). -/
def perform (o : Op) (s : State) : Host.Outcome (State × Reply) Fault Refusal :=
  match o with
  | .step =>
    match Sys2Proof.Machine.step s with
    | .next t => .next (t, .none)
    | .fault r => .fault r
    | .refused r => .refused r
  | .write address bytes => .next (hostWrite address bytes s)
  | .tickTimers => .next (hostTick s, .none)
  | .keyDown code => .next (hostKeyDown code s, .none)
  | .keyUp code => .next (hostKeyUp code s, .none)
  | .readDisplay xOffset yOffset length => .next (s, .pixels (hostReadDisplay xOffset yOffset length s))
  | .setStart address => .next (hostSetStart address s)

/-- A run: the host's schedule is any list of operations (45 R190, R198; decision D23). -/
def performAll : List Op → State → Host.Outcome State Fault Refusal
  | [], s => .next s
  | o :: os, s =>
    match perform o s with
    | .next (t, _) => performAll os t
    | .fault r => .fault r
    | .refused r => .refused r

end Sys2Proof.Machine
end

