-- ==== Sys2Proof/Safety.lean ====
section
/-! DEFINITION. The terms claims use: the parts of the state and what leaves them unchanged, what each instruction may change, the pc invariant, and the invariant of a run. Nothing makes a run unsafe: no step and no operation stops (60_exceptions R210). -/

namespace Sys2Proof.Machine

/-- The observable parts of the state: every register, timer, pixel, key and byte of memory on its own, and the
model's own counter of free values. -/
inductive Part where
  | reg (r : Nibble)
  | addrReg
  | pc
  | sp
  | byte (a : Nat)
  | delayTimer
  | soundTimer
  | pixel (x : Fin 64) (y : Fin 32)
  | key (k : Nibble)
  | latch
  | draws
  deriving DecidableEq, Repr

/-- A part holds the same in two states. -/
def Same (p : Part) (s t : State) : Prop :=
  match p with
  | .reg r => t.reg r = s.reg r
  | .addrReg => t.iReg = s.iReg
  | .pc => t.pc = s.pc
  | .sp => t.sp = s.sp
  | .byte a => t.mem.get a = s.mem.get a
  | .delayTimer => t.dt = s.dt
  | .soundTimer => t.st = s.st
  | .pixel x y => t.pixel x y = s.pixel x y
  | .key k => t.keyIsDown k = s.keyIsDown k
  | .latch => t.ka = s.ka
  | .draws => t.draws = s.draws

/-- The frame of a change: every part outside `changed` is unchanged. -/
def SameBut (changed : Part → Prop) (s t : State) : Prop := ∀ p, ¬ changed p → Same p s t

/-- An address inside memory (20_memory R60, R62). -/
abbrev InMemory (a : Addr) : Prop := a.toNat < Config.memSize

/-- "invariant: `0 ≤ pc ≤ memory_size - 2` during dispatch" (10_state R28): a duty of the program, which nothing
in the block enforces (10_state R31, 70_reset R241, conflict C10). -/
abbrev PcInRange (s : State) : Prop := s.pc.toNat + 2 ≤ Config.memSize

/-- The word `w` stands at pc, most significant byte first (20_memory R64). -/
abbrev WordAtPc (s : State) (w : OpWord) : Prop :=
  s.mem.get s.pc.toNat = hiByte w ∧ s.mem.get (s.pc + 1).toNat = loByte w

/-- "Whenever `KA = 1`, at least one key is up" (10_state R42). -/
abbrev LatchSound (s : State) : Prop := s.ka = true → ∃ k, s.keyIsDown k = false

/-- The invariant of every run: memory is in canonical form (log 3) and a raised latch has a key up (10_state R42). -/
abbrev State.Inv (s : State) : Prop := s.mem.wf ∧ LatchSound s

/-- FX0A completes in this state: "`key[i]` is currently up *and* the activity latch is in the 'up' state" (44 R184). -/
abbrev KeyEventPending (s : State) : Prop := s.ka = true ∧ ∃ k, s.keyIsDown k = false

/-- The sprite bit that falls on column `c`, row `l`: none outside the sprite's box (43 R171 to R173). -/
def spriteBit (rows : Nat → Byte) (x0 y0 n : Nat) (c : Fin 64) (l : Fin 32) : Bool :=
  decide (y0 ≤ l.val ∧ l.val < y0 + n ∧ x0 ≤ c.val ∧ c.val < x0 + 8) &&
    (rows (l.val - y0)).getLsbD (7 - (c.val - x0))

/-- What each instruction may change: the registers of 10_state R21 and R23, the bytes of 20_memory R65, the
special registers of 10_state R43, the pixels of 10_state R37, the latch of R41; pc beyond decoding's advance as
in R30; and the model's own counter where a free value can be drawn. -/
def mayChange (i : Instr) (s : State) (p : Part) : Prop :=
  match i with
  | .cls => ∃ c l, p = .pixel c l
  | .ret => p = .pc ∨ p = .sp ∨ p = .draws
  | .jp _ => p = .pc
  | .call _ => p = .pc ∨ p = .sp ∨ p = .byte s.sp.toNat ∨ p = .byte (s.sp - 1).toNat
  | .seImm _ _ => p = .pc
  | .sneImm _ _ => p = .pc
  | .seReg _ _ _ => p = .pc
  | .ldImm x _ => p = .reg x
  | .addImm x _ => p = .reg x
  | .ldReg x _ => p = .reg x
  | .orReg x _ => p = .reg x ∨ p = .reg vf
  | .andReg x _ => p = .reg x ∨ p = .reg vf
  | .xorReg x _ => p = .reg x ∨ p = .reg vf
  | .addReg x _ => p = .reg x ∨ p = .reg vf
  | .subReg x _ => p = .reg x ∨ p = .reg vf
  | .shr x _ => p = .reg x ∨ p = .reg vf
  | .subn x _ => p = .reg x ∨ p = .reg vf
  | .shl x _ => p = .reg x ∨ p = .reg vf
  | .sneReg _ _ _ => p = .pc
  | .ldI _ => p = .addrReg
  | .jpV0 _ => p = .pc
  | .rnd x _ => p = .reg x ∨ p = .draws
  | .drw _ _ _ => (∃ c l, p = .pixel c l) ∨ p = .reg vf ∨ p = .draws
  | .skp _ => p = .pc
  | .sknp _ => p = .pc
  | .ldVxDt x => p = .reg x
  | .ldVxK x => p = .reg x ∨ p = .latch ∨ p = .pc
  | .ldDtVx _ => p = .delayTimer
  | .ldStVx _ => p = .soundTimer
  | .addI _ => p = .addrReg
  | .ldF _ => p = .addrReg
  | .ldB _ => ∃ i < 3, p = .byte (s.iPlus i).toNat
  | .storeRegs x => p = .addrReg ∨ ∃ i < regCount x, p = .byte (s.iPlus i).toNat
  | .loadRegs x => p = .addrReg ∨ p = .draws ∨ ∃ k : Nibble, k ≤ x ∧ p = .reg k
  | .undef _ => False

end Sys2Proof.Machine
end

