-- ==== Sys2Proof/Certificates/Slice0/Obligations.lean ====
section
/-! DEFINITION. The statements for the provers, from the spec's numbered rules. "D<n>" is a decision of spec/92_eei_decisions.md (the spec's own choice where its source is silent), "log <n>" a row of notes/assumptions. In a statement about `exec`, `s.pc` is already the address after the instruction (10_state R29). -/

open Sys2Proof Sys2Proof.Machine

/-! ## Encoding -/

/-- 30_encoding R92, R93, R95, R96, R98: decoding an encoded well-formed instruction gives it back, for every
instruction and every operand (the split of the families is decision D6, log 12). -/
def Obligations.DecodeOfEncodeIsTheInstruction : Prop :=
  ∀ i : Instr, WellFormed i = true → decode (encode i) = i

/-- 30_encoding R95, R97, R98: decoding is total on the 65536 words, answers a well-formed instruction, and loses
no bit of the word (decision D6, log 12). -/
def Obligations.EncodeOfDecodeIsTheWord : Prop :=
  ∀ w : OpWord, WellFormed (decode w) = true ∧ encode (decode w) = w

/-- 30_encoding R96: "a word `op` is the instruction when `op & mask = match`", for the 34 rows, and UNDEF is any
word no row matches. The masks (0xF000 in families 5 and 9 among them), and so which words no row matches, are
decision D6 (log 12). -/
def Obligations.DecodeFollowsTheOpcodeMap : Prop :=
  ∀ w : OpWord,
    (∀ row ∈ opcodeMap, (w &&& row.mask = row.value ↔ (decode w).mnemonic = row.mnemonic)) ∧
    ((decode w).mnemonic = "UNDEF" ↔ ∀ row ∈ opcodeMap, w &&& row.mask ≠ row.value)

/-- 30_encoding R96: words written out from the encodings of R120 to R186, one or more of each family 0 to F. That
0x5127 and 0x912F are compares, their low nibble ignored, and which words of families 8 and F are undefined, is
decision D6 (log 12). -/
def Obligations.SampleWordsDecodeAsTheManualSays : Prop :=
  decode 0x00E0 = .cls ∧ decode 0x00EE = .ret ∧ decode 0x1ABC = .jp 0xABC ∧ decode 0x2300 = .call 0x300 ∧
  decode 0x3A05 = .seImm 0xA 0x05 ∧ decode 0x4A05 = .sneImm 0xA 0x05 ∧ decode 0x5127 = .seReg 1 2 7 ∧
  decode 0x6005 = .ldImm 0 0x05 ∧ decode 0x7003 = .addImm 0 0x03 ∧ decode 0x8125 = .subReg 1 2 ∧
  decode 0x812E = .shl 1 2 ∧ decode 0x912F = .sneReg 1 2 0xF ∧ decode 0xA22A = .ldI 0x22A ∧
  decode 0xB300 = .jpV0 0x300 ∧ decode 0xD125 = .drw 1 2 5 ∧
  decode 0xC10F = .rnd 1 0x0F ∧ decode 0xE1A1 = .sknp 1 ∧ decode 0xF50A = .ldVxK 5 ∧
  decode 0xF255 = .storeRegs 2 ∧ decode 0x8128 = .undef 0x8128 ∧ decode 0xF1FF = .undef 0xF1FF

/-- 30_encoding R98's table of undefined words, in numbers: every 0NNN but 00E0 and 00EE, seven low nibbles of
family 8, all but two sub-opcodes of family E, all but nine of family F, and no other word (decision D6, log 12). -/
def Obligations.UndefinedWordsAreExactlyTheListed : Prop :=
  ∀ w : OpWord, decode w = .undef w ↔
    (w.toNat / 0x1000 = 0x0 ∧ w.toNat ≠ 0x00E0 ∧ w.toNat ≠ 0x00EE) ∨
    (w.toNat / 0x1000 = 0x8 ∧ w.toNat % 0x10 ∈ [0x8, 0x9, 0xA, 0xB, 0xC, 0xD, 0xF]) ∨
    (w.toNat / 0x1000 = 0xE ∧ w.toNat % 0x100 ∉ [0x9E, 0xA1]) ∨
    (w.toNat / 0x1000 = 0xF ∧
      w.toNat % 0x100 ∉ [0x07, 0x0A, 0x15, 0x18, 0x1E, 0x29, 0x33, 0x55, 0x65])

/-! ## The step -/

/-- 45_host_operations R191, 20_memory R64, 10_state R29: with pc in range and the word of a well-formed
instruction at pc, step is that instruction's handler on the state with pc advanced by 2. -/
def Obligations.StepRunsTheDecodedInstruction : Prop :=
  ∀ (s : State) (i : Instr), WellFormed i = true → PcInRange s → WordAtPc s (encode i) →
    step s = exec i (s.setPc (s.pc + 2))

/-- 20_memory R62, R64, 10_state R31: a step with pc outside 0 .. MEM_SIZE - 2 is still defined; a fetched byte
outside memory is a free value (decision D3, log 5), one inside memory is memory's. That pc is kept modulo 2^16 and
never masked to 12 bits is decision D4 (log 14). -/
def Obligations.FetchOutsideMemoryReadsFreeBytes : Prop :=
  ∀ s : State,
    (s.pc = 0x0FFF →
      step s = exec (decode (s.mem.get 0xFFF ++ Config.oobRead s.draws))
        ((s.setDraws (s.draws + 1)).setPc 0x1001)) ∧
    (0x1000 ≤ s.pc.toNat → s.pc ≠ 0xFFFF →
      step s = exec (decode (Config.oobRead s.draws ++ Config.oobRead (s.draws + 1)))
        ((s.setDraws (s.draws + 2)).setPc (s.pc + 2))) ∧
    (s.pc = 0xFFFF →
      step s = exec (decode (Config.oobRead s.draws ++ s.mem.get 0)) ((s.setDraws (s.draws + 1)).setPc 1))

/-- 60_exceptions R210, R211: every step, every operation of the host and every run completes; nothing faults and
nothing is refused, whatever the state. -/
def Obligations.EveryOperationCompletes : Prop :=
  (∀ s : State, ∃ t, step s = .next t) ∧
  (∀ (o : Op) (s : State), ∃ t r, perform o s = .next (t, r)) ∧
  (∀ (os : List Op) (s : State), ∃ t, performAll os s = .next t)

/-- 20_memory R73, 42 R164: a program may write an instruction with FX55 "and execute it with the very next step".
Whatever X, an FX55 at pc whose Vk and V(k+1) land on the two bytes after it is followed by a step that runs the
word Vk V(k+1). Stored bytes outside memory are dropped (decision D3, log 5), addresses are modulo 2^16 (decision D4,
log 14). -/
def Obligations.StoredInstructionRunsAtTheNextStep : Prop :=
  ∀ (x k : Nibble) (s : State), s.pc.toNat + 4 ≤ Config.memSize → WordAtPc s (encode (.storeRegs x)) →
    k < x → s.iPlus k.toNat = s.pc + 2 →
    ∃ t, step s = .next t ∧ t.pc = s.pc + 2 ∧
      step t = exec (decode (s.reg k ++ s.reg (k + 1))) (t.setPc (s.pc + 4))

/-! ## Control flow -/

/-- 40_flow R121: `0001 nnnn nnnn nnnn` sets pc to NNN and changes nothing else. -/
def Obligations.JumpSetsPcAlone : Prop :=
  ∀ (nnn : Imm12) (s : State), decode (0x1#4 ++ nnn) = .jp nnn ∧ ∃ t, exec (.jp nnn) s = .next t ∧
    t.pc.toNat = nnn.toNat ∧ SameBut (fun p => p = .pc) s t

/-- 40_flow R123: BNNN sets pc to the exact sum of NNN and V0, not reduced modulo 4096 (decision D4, log 14). -/
def Obligations.JumpWithOffsetIsTheExactSum : Prop :=
  ∀ (nnn : Imm12) (s : State), ∃ t, exec (.jpV0 nnn) s = .next t ∧
    t.pc.toNat = nnn.toNat + (s.reg 0).toNat ∧ SameBut (fun p => p = .pc) s t

/-- 40_flow R122, 20_memory R66: 2NNN pushes the advanced pc, high byte at sp, low byte at sp - 1 (decision D2,
log 11), each dropped if outside memory (R63, decision D3, log 5), lowers sp by 2, modulo 2^16 (decision D4, log 14),
and sets pc to NNN. -/
def Obligations.CallPushesTheAdvancedPc : Prop :=
  ∀ (nnn : Imm12) (s : State), ∃ t, exec (.call nnn) s = .next t ∧
    t.pc.toNat = nnn.toNat ∧ t.sp = s.sp - 2 ∧
    (InMemory s.sp → t.mem.get s.sp.toNat = hiByte s.pc) ∧
    (InMemory (s.sp - 1) → t.mem.get (s.sp - 1).toNat = loByte s.pc) ∧
    SameBut (fun p => p = .pc ∨ p = .sp ∨ (InMemory s.sp ∧ p = .byte s.sp.toNat) ∨
      (InMemory (s.sp - 1) ∧ p = .byte (s.sp - 1).toNat)) s t

/-- 40_flow R120, 20_memory R67: 00EE takes pc's low byte from sp + 1 and its high byte from sp + 2 (decision D2,
log 11) and raises sp by 2, modulo 2^16 (decision D4, log 14); a byte outside memory is a free value (decision D3,
log 5), and none is drawn otherwise. -/
def Obligations.ReturnPopsPc : Prop :=
  ∀ s : State, ∃ t lo hi, exec .ret s = .next t ∧
    t.pc = hi ++ lo ∧ t.sp = s.sp + 2 ∧
    (InMemory (s.sp + 1) → lo = s.mem.get (s.sp + 1).toNat) ∧
    (InMemory (s.sp + 2) → hi = s.mem.get (s.sp + 2).toNat) ∧
    (InMemory (s.sp + 1) → InMemory (s.sp + 2) → t.draws = s.draws) ∧
    SameBut (fun p => p = .pc ∨ p = .sp ∨ p = .draws) s t

/-- 95_test_vectors S2 with the premises it names: a call followed immediately by a return "restores the program
counter to the value it held immediately after the call instruction's own two bytes were consumed", and sp with it
(20_memory R66, R67). Which two bytes the call stores to, sp and sp - 1, in the premises and in the frame, is decision
D2 (log 11). -/
def Obligations.CallThenReturnComesBack : Prop :=
  ∀ (s : State) (nnn : Imm12), PcInRange s → WordAtPc s (encode (.call nnn)) →
    nnn.toNat + 2 ≤ Config.memSize → s.mem.get nnn.toNat = 0x00 → s.mem.get (nnn.toNat + 1) = 0xEE →
    InMemory s.sp → InMemory (s.sp - 1) →
    (∀ a ∈ [s.sp.toNat, (s.sp - 1).toNat], a ≠ nnn.toNat ∧ a ≠ nnn.toNat + 1) →
    ∃ t u, step s = .next t ∧ step t = .next u ∧ u.pc = s.pc + 2 ∧
      SameBut (fun p => p = .pc ∨ p = .byte s.sp.toNat ∨ p = .byte (s.sp - 1).toNat) s u

/-- 40_flow R124, R125: `0011 xxxx nnnn nnnn` skips when VX equals NN and `0100 xxxx nnnn nnnn` when it does not;
nothing but pc changes. -/
def Obligations.SkipComparesWithImmediate : Prop :=
  ∀ (x : Nibble) (nn : Byte) (s : State),
    decode (0x3#4 ++ x ++ nn) = .seImm x nn ∧ decode (0x4#4 ++ x ++ nn) = .sneImm x nn ∧
    (∃ t, exec (.seImm x nn) s = .next t ∧ t.pc = (if s.reg x = nn then s.pc + 2 else s.pc) ∧
      SameBut (fun p => p = .pc) s t) ∧
    (∃ t, exec (.sneImm x nn) s = .next t ∧ t.pc = (if s.reg x ≠ nn then s.pc + 2 else s.pc) ∧
      SameBut (fun p => p = .pc) s t)

/-- 40_flow R126, R127: 5XYn skips when VX equals VY and 9XYn when it does not, for every low nibble n (ignored:
30_encoding R97, decision D6, log 12); nothing but pc changes. -/
def Obligations.SkipComparesRegisters : Prop :=
  ∀ (x y n : Nibble) (s : State),
    (∃ t, exec (.seReg x y n) s = .next t ∧ t.pc = (if s.reg x = s.reg y then s.pc + 2 else s.pc) ∧
      SameBut (fun p => p = .pc) s t) ∧
    (∃ t, exec (.sneReg x y n) s = .next t ∧ t.pc = (if s.reg x ≠ s.reg y then s.pc + 2 else s.pc) ∧
      SameBut (fun p => p = .pc) s t)

/-- 44 R181, R182, R187: EX9E skips when the key of VX's low nibble is down, EXA1 when it is up (the low nibble is
decision D7, log 14); neither reads or changes KA. -/
def Obligations.SkipTestsTheSelectedKey : Prop :=
  ∀ (x : Nibble) (s : State) (k : Nibble), k.toNat = (s.reg x).toNat % 16 →
    (∃ t, exec (.skp x) s = .next t ∧ t.pc = (if s.keyIsDown k = true then s.pc + 2 else s.pc) ∧
      SameBut (fun p => p = .pc) s t) ∧
    (∃ t, exec (.sknp x) s = .next t ∧ t.pc = (if s.keyIsDown k = false then s.pc + 2 else s.pc) ∧
      SameBut (fun p => p = .pc) s t)

/-- 40_flow R128: an undefined word is "silently treated as a no-op that still advances the program counter past the
2-byte instruction"; its handler changes nothing, and a step on it changes pc alone. Which words are undefined (30_encoding R98, in
`undefinedWord`) is decision D6 (log 12). -/
def Obligations.UndefinedWordOnlyAdvancesPc : Prop :=
  ∀ (w : OpWord) (s : State),
    (∃ t, exec (.undef w) s = .next t ∧ t = s) ∧
    (undefinedWord w = true → PcInRange s → WordAtPc s w → step s = .next (s.setPc (s.pc + 2)))

/-! ## Register load, arithmetic, logic, shifts -/

/-- 41_alu R140, R141, R142: load immediate (`0110 xxxx nnnn nnnn`), add immediate modulo 256 without a flag
(`0111 xxxx nnnn nnnn`), copy (`1000 xxxx yyyy 0000`); only the destination changes (VF only as the destination). -/
def Obligations.LoadAddImmediateAndCopy : Prop :=
  ∀ (x y : Nibble) (nn : Byte) (s : State),
    decode (0x6#4 ++ x ++ nn) = .ldImm x nn ∧ decode (0x7#4 ++ x ++ nn) = .addImm x nn ∧
    decode (0x8#4 ++ x ++ y ++ 0x0#4) = .ldReg x y ∧
    (∃ t, exec (.ldImm x nn) s = .next t ∧ t.reg x = nn ∧ SameBut (fun p => p = .reg x) s t) ∧
    (∃ t, exec (.addImm x nn) s = .next t ∧ (t.reg x).toNat = ((s.reg x).toNat + nn.toNat) % 256 ∧
      SameBut (fun p => p = .reg x) s t) ∧
    (∃ t, exec (.ldReg x y) s = .next t ∧ t.reg x = s.reg y ∧ SameBut (fun p => p = .reg x) s t)

/-- 41_alu R143, R144, R145, 10_state R23: or, and, xor, bit by bit, and VF <- 0 always; with X = 0xF the flag is
what VF holds (10_state R25, the spec's decision D5, log 7). -/
def Obligations.LogicClearsTheFlag : Prop :=
  ∀ (x y : Nibble) (s : State),
    (∃ t, exec (.orReg x y) s = .next t ∧ t.reg 0xF = 0 ∧
      (x ≠ 0xF → ∀ b, (t.reg x).getLsbD b = ((s.reg x).getLsbD b || (s.reg y).getLsbD b)) ∧
      SameBut (fun p => p = .reg x ∨ p = .reg 0xF) s t) ∧
    (∃ t, exec (.andReg x y) s = .next t ∧ t.reg 0xF = 0 ∧
      (x ≠ 0xF → ∀ b, (t.reg x).getLsbD b = ((s.reg x).getLsbD b && (s.reg y).getLsbD b)) ∧
      SameBut (fun p => p = .reg x ∨ p = .reg 0xF) s t) ∧
    (∃ t, exec (.xorReg x y) s = .next t ∧ t.reg 0xF = 0 ∧
      (x ≠ 0xF → ∀ b, (t.reg x).getLsbD b = ((s.reg x).getLsbD b ^^ (s.reg y).getLsbD b)) ∧
      SameBut (fun p => p = .reg x ∨ p = .reg 0xF) s t)

/-- 41_alu R146: 8XY4 adds modulo 256 and sets VF exactly when the sum of the original values exceeds 255; with
X = 0xF VF holds the carry (10_state R25, the spec's decision D5, log 7). -/
def Obligations.AddSetsTheCarry : Prop :=
  ∀ (x y : Nibble) (s : State), ∃ t, exec (.addReg x y) s = .next t ∧
    t.reg 0xF = (if (s.reg x).toNat + (s.reg y).toNat > 255 then 1 else 0) ∧
    (x ≠ 0xF → (t.reg x).toNat = ((s.reg x).toNat + (s.reg y).toNat) % 256) ∧
    SameBut (fun p => p = .reg x ∨ p = .reg 0xF) s t

/-- 41_alu R147, R149: 8XY5 leaves VX - VY and 8XY7 VY - VX modulo 256, VF 1 exactly when nothing was borrowed,
from the original values; with X = 0xF VF holds the flag (10_state R25, the spec's decision D5, log 7). -/
def Obligations.SubtractSetsNotBorrow : Prop :=
  ∀ (x y : Nibble) (s : State),
    (∃ t, exec (.subReg x y) s = .next t ∧
      t.reg 0xF = (if (s.reg x).toNat ≥ (s.reg y).toNat then 1 else 0) ∧
      (x ≠ 0xF → (t.reg x).toNat = ((s.reg x).toNat + 256 - (s.reg y).toNat) % 256) ∧
      SameBut (fun p => p = .reg x ∨ p = .reg 0xF) s t) ∧
    (∃ t, exec (.subn x y) s = .next t ∧
      t.reg 0xF = (if (s.reg y).toNat ≥ (s.reg x).toNat then 1 else 0) ∧
      (x ≠ 0xF → (t.reg x).toNat = ((s.reg y).toNat + 256 - (s.reg x).toNat) % 256) ∧
      SameBut (fun p => p = .reg x ∨ p = .reg 0xF) s t)

/-- 41_alu R148, R150: the shifts move the original VY, not VX, by one bit, and VF takes the bit shifted out; with
X = 0xF VF holds the flag (10_state R25, the spec's decision D5, log 7). -/
def Obligations.ShiftsMoveVyByOne : Prop :=
  ∀ (x y : Nibble) (s : State),
    (∃ t, exec (.shr x y) s = .next t ∧ (t.reg 0xF).toNat = (s.reg y).toNat % 2 ∧
      (x ≠ 0xF → (t.reg x).toNat = (s.reg y).toNat / 2) ∧
      SameBut (fun p => p = .reg x ∨ p = .reg 0xF) s t) ∧
    (∃ t, exec (.shl x y) s = .next t ∧ (t.reg 0xF).toNat = (s.reg y).toNat / 128 ∧
      (x ≠ 0xF → (t.reg x).toNat = (s.reg y).toNat * 2 % 256) ∧
      SameBut (fun p => p = .reg x ∨ p = .reg 0xF) s t)

/-! ## The address register and memory -/

/-- 42 R160: `1010 nnnn nnnn nnnn` sets I to NNN and changes nothing else. -/
def Obligations.LoadAddressRegister : Prop :=
  ∀ (nnn : Imm12) (s : State), decode (0xA#4 ++ nnn) = .ldI nnn ∧ ∃ t, exec (.ldI nnn) s = .next t ∧
    t.iReg.toNat = nnn.toNat ∧ SameBut (fun p => p = .addrReg) s t

/-- 42 R161: FX1E adds VX to I modulo 2^16, never modulo 4096 (decision D4, log 14), and writes no flag. -/
def Obligations.AddToAddressRegister : Prop :=
  ∀ (x : Nibble) (s : State), ∃ t, exec (.addI x) s = .next t ∧
    t.iReg.toNat = (s.iReg.toNat + (s.reg x).toNat) % 65536 ∧ SameBut (fun p => p = .addrReg) s t

/-- 42 R162: FX29 sets I to the font base plus five times the whole of VX, unmasked (decision D21, log 14). -/
def Obligations.PointAtTheFontDigit : Prop :=
  ∀ (x : Nibble) (s : State), ∃ t, exec (.ldF x) s = .next t ∧
    t.iReg.toNat = Config.fontBase.toNat + (s.reg x).toNat * 5 ∧ SameBut (fun p => p = .addrReg) s t

/-- 42 R163: FX33 writes the three decimal digits of VX at I, I + 1, I + 2, most significant first; a byte outside
memory is dropped (20_memory R63, R75, decision D3, log 5), the addresses are modulo 2^16 (R166, decision D4, log 14);
I and everything else is unchanged. -/
def Obligations.StoreDecimalDigits : Prop :=
  ∀ (x : Nibble) (s : State), ∃ t h d o, exec (.ldB x) s = .next t ∧
    100 * h + 10 * d + o = (s.reg x).toNat ∧ d ≤ 9 ∧ o ≤ 9 ∧
    (InMemory (s.iPlus 0) → (t.mem.get (s.iPlus 0).toNat).toNat = h) ∧
    (InMemory (s.iPlus 1) → (t.mem.get (s.iPlus 1).toNat).toNat = d) ∧
    (InMemory (s.iPlus 2) → (t.mem.get (s.iPlus 2).toNat).toNat = o) ∧
    SameBut (fun p => ∃ i < 3, InMemory (s.iPlus i) ∧ p = .byte (s.iPlus i).toNat) s t

/-- 42 R164: FX55 stores V0 to VX at I, I + 1, ..., each byte inside memory and no other (20_memory R63, R75,
decision D3, log 5), then adds X + 1 to I; addresses and I are modulo 2^16 (R166, decision D4, log 14). -/
def Obligations.StoreRegistersAtI : Prop :=
  ∀ (x : Nibble) (s : State), ∃ t, exec (.storeRegs x) s = .next t ∧
    t.iReg.toNat = (s.iReg.toNat + x.toNat + 1) % 65536 ∧
    (∀ k : Nibble, k ≤ x → InMemory (s.iPlus k.toNat) → t.mem.get (s.iPlus k.toNat).toNat = s.reg k) ∧
    SameBut (fun p => p = .addrReg ∨
      ∃ k : Nibble, k ≤ x ∧ InMemory (s.iPlus k.toNat) ∧ p = .byte (s.iPlus k.toNat).toNat) s t

/-- 42 R165: FX65 loads V0 to VX from I, I + 1, ..., then adds X + 1 to I; addresses and I are modulo 2^16 (R166,
decision D4, log 14). A byte outside memory is a free value (20_memory R62, decision D3, log 5), and none is drawn when
all lie inside. -/
def Obligations.LoadRegistersFromI : Prop :=
  ∀ (x : Nibble) (s : State), ∃ t, exec (.loadRegs x) s = .next t ∧
    t.iReg.toNat = (s.iReg.toNat + x.toNat + 1) % 65536 ∧
    (∀ k : Nibble, k ≤ x → InMemory (s.iPlus k.toNat) → t.reg k = s.mem.get (s.iPlus k.toNat).toNat) ∧
    ((∀ k : Nibble, k ≤ x → InMemory (s.iPlus k.toNat)) → t.draws = s.draws) ∧
    SameBut (fun p => p = .addrReg ∨ p = .draws ∨ ∃ k : Nibble, k ≤ x ∧ p = .reg k) s t

/-- 42 R164, R165: what FX55 stored inside memory, FX65 with the same X and the same I gives back to V0 .. VX, in
whatever state the same memory stands. -/
def Obligations.LoadGivesBackWhatStoreSaved : Prop :=
  ∀ (x : Nibble) (s t u : State), s.iReg.toNat + x.toNat < Config.memSize →
    exec (.storeRegs x) s = .next t → (∀ a, u.mem.get a = t.mem.get a) → u.iReg = s.iReg →
    ∃ v, exec (.loadRegs x) u = .next v ∧ ∀ k : Nibble, k ≤ x → v.reg k = s.reg k

/-! ## Display -/

/-- 43 R170: `0000 0000 1110 0000` leaves every pixel 0 and changes nothing else, VF not even. -/
def Obligations.ClearTurnsEveryPixelOff : Prop :=
  ∀ s : State, decode 0x00E0 = .cls ∧ ∃ t, exec .cls s = .next t ∧ (∀ c l, t.pixel c l = false) ∧
    SameBut (fun p => ∃ c l, p = .pixel c l) s t

/-- 43 R171 to R174: DXYN XORs N rows of eight bits into the display at the wrapped origin, clipped at the edges,
bit 7 leftmost (decision D9, log 8); VF is 1 exactly when a pixel turned off. The rows are the bytes at I, I + 1,
..., modulo 2^16 (decision D4, log 14); one outside memory is a free value (decision D3, log 5). Nothing else changes, I not even. -/
def Obligations.DrawXorsTheSprite : Prop :=
  ∀ (x y n : Nibble) (s : State), ∃ (t : State) (rows : Nat → Byte), exec (.drw x y n) s = .next t ∧
    (∀ r < n.toNat, InMemory (s.iPlus r) → rows r = s.mem.get (s.iPlus r).toNat) ∧
    (∀ c l, t.pixel c l = (s.pixel c l ^^
      spriteBit rows ((s.reg x).toNat % 64) ((s.reg y).toNat % 32) n.toNat c l)) ∧
    ((∃ c l, s.pixel c l = true ∧ t.pixel c l = false) → t.reg 0xF = 1) ∧
    ((∀ c l, s.pixel c l = true → t.pixel c l = true) → t.reg 0xF = 0) ∧
    ((∀ r < n.toNat, InMemory (s.iPlus r)) → t.draws = s.draws) ∧
    SameBut (fun p => (∃ c l, p = .pixel c l) ∨ p = .reg 0xF ∨ p = .draws) s t

/-- 43 R175 (conflict C8): "drawing the same sprite at the same location twice in succession restores the pre-draw
display state exactly"; the second draw's flag is 1 exactly when some unclipped sprite bit covers a pixel that was 0.
The sprite lies inside memory, and the first draw's flag did not move the location. Which bit of a row covers which
pixel (bit 7 leftmost, R172, in `spriteBit`) is decision D9 (log 8). -/
def Obligations.DrawTwiceRestoresTheDisplay : Prop :=
  ∀ (x y n : Nibble) (s t : State), (∀ r < n.toNat, InMemory (s.iPlus r)) →
    exec (.drw x y n) s = .next t → t.reg x = s.reg x → t.reg y = s.reg y →
    ∃ u, exec (.drw x y n) t = .next u ∧ (∀ c l, u.pixel c l = s.pixel c l) ∧
      (u.reg 0xF = 1 ↔ ∃ c l, s.pixel c l = false ∧
        spriteBit (fun r => s.mem.get (s.iPlus r).toNat) ((s.reg x).toNat % 64) ((s.reg y).toNat % 32)
          n.toNat c l = true)

/-! ## Random, keys, timers -/

/-- 44 R180: CXNN stores a fresh free byte masked by NN: "every bit of `x[X]` where `NN` has a 0 is 0". The free byte
is the model's `Config.randByte` at its counter (decision D12, log 4, log 6); the statement holds for every value of it. -/
def Obligations.RandomIsAMaskedFreeByte : Prop :=
  ∀ (x : Nibble) (nn : Byte) (s : State), ∃ t, exec (.rnd x nn) s = .next t ∧
    t.reg x = Config.randByte s.draws &&& nn ∧ t.reg x &&& ~~~nn = 0 ∧ t.draws = s.draws + 1 ∧
    SameBut (fun p => p = .reg x ∨ p = .draws) s t

/-- 44 R183, R185, R186: FX07 reads DT, FX15 writes DT, FX18 writes ST (the spec's decision D17, log 15); nothing
else changes. -/
def Obligations.TimerInstructionsCopy : Prop :=
  ∀ (x : Nibble) (s : State),
    (∃ t, exec (.ldVxDt x) s = .next t ∧ t.reg x = s.dt ∧ SameBut (fun p => p = .reg x) s t) ∧
    (∃ t, exec (.ldDtVx x) s = .next t ∧ t.dt = s.reg x ∧ SameBut (fun p => p = .delayTimer) s t) ∧
    (∃ t, exec (.ldStVx x) s = .next t ∧ t.st = s.reg x ∧ SameBut (fun p => p = .soundTimer) s t)

/-- 44 R184: with KA = 1 and a key up, FX0A completes: VX takes the least key that is up (conflict C2, log 9), KA is
consumed (decision D8, log 9), pc stays past the instruction. -/
def Obligations.WaitKeyCompletesOnAPendingEvent : Prop :=
  ∀ (x : Nibble) (s : State), KeyEventPending s → ∃ t k, exec (.ldVxK x) s = .next t ∧
    s.keyIsDown k = false ∧ (∀ j < k, s.keyIsDown j = true) ∧
    (t.reg x).toNat = k.toNat ∧ t.ka = false ∧ SameBut (fun p => p = .reg x ∨ p = .latch) s t

/-- 44 R184: otherwise FX0A rewinds pc by 2 and changes nothing else, so that a whole step on it leaves the state as
it was (decision D24, log 9); the rewind is modulo 2^16 (decision D4, log 14). -/
def Obligations.WaitKeyRewindsOtherwise : Prop :=
  ∀ (x : Nibble) (s : State), ¬ KeyEventPending s →
    (∃ t, exec (.ldVxK x) s = .next t ∧ t.pc = s.pc - 2 ∧ SameBut (fun p => p = .pc) s t) ∧
    (PcInRange s → WordAtPc s (encode (.ldVxK x)) → step s = .next s)

/-- 44 R188, 45 R194, R195: a press alone never completes a waiting FX0A; the release of a mapped key completes it
"on the step immediately following the key-up", with the lowest key then up (conflict C2, decisions D8 and D24, log 9).
That this is so whether or not the event changes the key's state is decision D19 (log 16). -/
def Obligations.ReleaseEndsTheWaitAndPressDoesNot : Prop :=
  ∀ (x : Nibble) (s : State) (k : Nibble) (code : Byte), PcInRange s → WordAtPc s (encode (.ldVxK x)) →
    (k, code) ∈ Config.keymap →
    step (hostKeyDown code s) = .next (hostKeyDown code s) ∧
    ∃ t j, step (hostKeyUp code s) = .next t ∧ t.pc = s.pc + 2 ∧ t.ka = false ∧
      (t.reg x).toNat = j.toNat ∧ (j = k ∨ s.keyIsDown j = false) ∧
      ∀ i < j, i ≠ k ∧ s.keyIsDown i = true

/-! ## Host operations -/

/-- 45 R192: the raw write stores every byte or, when the exact sum `address + len` exceeds MEM_SIZE, none and is
rejected (the boundary is decision D15, log 16). -/
def Obligations.RawWriteIsAllOrNothing : Prop :=
  ∀ (address : Addr) (bytes : List Byte) (s : State),
    (address.toNat + bytes.length ≤ Config.memSize → ∃ t, hostWrite address bytes s = (t, .ok) ∧
      (∀ (i : Nat) (h : i < bytes.length), t.mem.get (address.toNat + i) = bytes[i]) ∧
      SameBut (fun p => ∃ i < bytes.length, p = .byte (address.toNat + i)) s t) ∧
    (address.toNat + bytes.length > Config.memSize → hostWrite address bytes s = (s, .rejected))

/-- 45 R193: each tick lowers both timers by exactly 1 and holds them at 0, however often it comes, and changes
nothing else; "no other component decrements them; only the FX15/FX18 instructions set them". That FX15 sets DT and FX18 sets ST is
decision D17 (log 15). -/
def Obligations.TimersFallOnlyByTicks : Prop :=
  (∀ (n : Nat) (s : State),
    ((hostTick^[n]) s).dt.toNat = s.dt.toNat - n ∧ ((hostTick^[n]) s).st.toNat = s.st.toNat - n ∧
    SameBut (fun p => p = .delayTimer ∨ p = .soundTimer) s ((hostTick^[n]) s)) ∧
  (∀ (o : Op) (s t : State) (r : Reply), perform o s = .next (t, r) →
    (t.dt ≠ s.dt → o = .tickTimers ∨ (o = .step ∧ ∃ x, decode s.fetch.1 = .ldDtVx x ∧ t.dt = s.reg x)) ∧
    (t.st ≠ s.st → o = .tickTimers ∨ (o = .step ∧ ∃ x, decode s.fetch.1 = .ldStVx x ∧ t.st = s.reg x)))

/-- 45 R194, R195: a mapped key event writes that key's state and the latch, even if the key was already so
(decision D19, log 16), and nothing else; an unmapped code is ignored. -/
def Obligations.KeyEventsWriteKeyAndLatch : Prop :=
  ∀ (code : Byte) (s : State),
    (∀ k, (k, code) ∈ Config.keymap →
      ((hostKeyDown code s).keyIsDown k = true ∧ (hostKeyDown code s).ka = false ∧
        SameBut (fun p => p = .key k ∨ p = .latch) s (hostKeyDown code s)) ∧
      ((hostKeyUp code s).keyIsDown k = false ∧ (hostKeyUp code s).ka = true ∧
        SameBut (fun p => p = .key k ∨ p = .latch) s (hostKeyUp code s))) ∧
    ((∀ k, (k, code) ∉ Config.keymap) → hostKeyDown code s = s ∧ hostKeyUp code s = s)

/-- 45 R196: a framebuffer read gives the pixels from the wrapped offset on in row-major order, clamped at the last
pixel (decision D13, log 16), leaves the state as it was, and leaves the buffer's later elements untouched. -/
def Obligations.ReadDisplayIsARowMajorSnapshot : Prop :=
  ∀ (xo yo len : Nat) (s : State), ∃ ps, perform (.readDisplay xo yo len) s = .next (s, .pixels ps) ∧
    ps.length = min len (2048 - (yo % 32 * 64 + xo % 64)) ∧
    (∀ (j : Nat) (c : Fin 64) (l : Fin 32), j < len → yo % 32 * 64 + xo % 64 + j = l.val * 64 + c.val →
      ps[j]? = some (s.pixel c l)) ∧
    (∀ (buffer : List Bool) (j : Nat), j ≥ ps.length → (fillBuffer buffer ps)[j]? = buffer[j]?)

/-- 45 R197: set_start accepts an address inside memory and writes pc alone, sp not (decision D14, log 16); it
rejects any other and changes nothing. -/
def Obligations.SetStartWritesPcAlone : Prop :=
  ∀ (address : Addr) (s : State),
    (InMemory address → ∃ t, hostSetStart address s = (t, .ok) ∧ t.pc = address ∧
      SameBut (fun p => p = .pc) s t) ∧
    (¬ InMemory address → hostSetStart address s = (s, .rejected))

/-! ## Reset and boot -/

/-- 70_reset R230, R231, R233: construction sets pc to the start address and sp to one less, and copies the font table
to the font base, for every start address in 1 .. MEM_SIZE - 2 (00_scope R5, decision D14, log 18; the table's bytes are decision D10, log 2). -/
def Obligations.ResetSetsPcSpAndFont : Prop :=
  State.reset = State.resetAt 0x200 (by decide) ∧
  ∀ (start : Addr) (h : Config.ValidStart start),
    (State.resetAt start h).pc = start ∧ (State.resetAt start h).sp.toNat = start.toNat - 1 ∧
    ∀ i < 80, some ((State.resetAt start h).mem.get (Config.fontBase.toNat + i)) = Config.fontTable[i]?

/-- 10_state R40: everything else is zero after reset; these values are the spec's own decisions D8 and D11 (log 1,
log 9), not its source's. -/
def Obligations.ResetClearsTheRest : Prop :=
  ∀ (start : Addr) (h : Config.ValidStart start), let s := State.resetAt start h
    (∀ r, s.reg r = 0) ∧ s.iReg = 0 ∧ s.dt = 0 ∧ s.st = 0 ∧ (∀ c l, s.pixel c l = false) ∧
    (∀ k, s.keyIsDown k = false) ∧ s.ka = false ∧
    ∀ a, (a < Config.fontBase.toNat ∨ Config.fontBase.toNat + 80 ≤ a) → s.mem.get a = 0

/-- 70_reset R232, R235: a program image written at the start address after reset is accepted up to 3584 bytes, and
the first step runs its first word; a longer image is rejected whole (45 R192, the boundary is decision D15, log 16). -/
def Obligations.BootRunsTheLoadedProgram : Prop :=
  ∀ (b0 b1 : Byte) (rest : List Byte),
    (rest.length ≤ 3582 → ∃ t, hostWrite Config.startAddr (b0 :: b1 :: rest) State.reset = (t, .ok) ∧
      step t = exec (decode (b0 ++ b1)) (t.setPc 0x202)) ∧
    (rest.length > 3582 →
      hostWrite Config.startAddr (b0 :: b1 :: rest) State.reset = (State.reset, .rejected))

/-! ## Invariants and whole-machine rules -/

/-- 10_state R42 and log 3: every step keeps the invariant of a run, memory in canonical form and "whenever `KA = 1`,
at least one key is up". -/
def Obligations.StepKeepsTheInvariant : Prop :=
  ∀ s t : State, s.Inv → step s = .next t → t.Inv

/-- 10_state R42, 45 R190: every operation of the host keeps the invariant, so every run does, whatever the host's
schedule (log 3, log 13). -/
def Obligations.OperationsKeepTheInvariant : Prop :=
  (∀ (o : Op) (s t : State) (r : Reply), s.Inv → perform o s = .next (t, r) → t.Inv) ∧
  (∀ (os : List Op) (s t : State), s.Inv → performAll os s = .next t → t.Inv)

/-- 10_state R42, R40: the machine meets the invariant right after reset, for every start address R5 allows; that KA
is 0 there is decision D8 (log 9). -/
def Obligations.ResetMeetsTheInvariant : Prop :=
  State.reset.Inv ∧ ∀ (start : Addr) (h : Config.ValidStart start), (State.resetAt start h).Inv

/-- Log 3 (the model's canonical memory): two memories in canonical form that read the same at every address are
equal, so a frame stated by reads is a frame of the data. -/
def Obligations.CanonicalMemoriesAreTheirReads : Prop :=
  ∀ m n : Memory, m.wf → n.wf → (∀ a, m.get a = n.get a) → m = n

/-- 10_state R21, R23, R37, R39, R43, 20_memory R65, 45 R193: no instruction changes any part of the state outside its
row of the spec's tables: a register not its destination, a byte it does not store, a timer, a pixel, a key state.
The bytes sp and sp - 1 of 2NNN are decision D2 (log 11), the timers of FX07, FX15 and FX18 decision D17 (log 15),
FX0A's consumption of the latch decision D8 (log 9). That a store past memory never wraps into it is decision D3
(log 5), that the computed addresses are modulo 2^16 decision D4 (log 14). -/
def Obligations.InstructionsChangeOnlyTheirOwnParts : Prop :=
  ∀ (i : Instr) (s t : State), exec i s = .next t → SameBut (mayChange i s) s t

/-- 10_state R30: what each instruction leaves in pc, where `s.pc` is `pc0 + 2`. Decisions of the spec in it: D2 and
D3 (the popped value, log 11, log 5), D4 (BNNN's exact sum) and D7 (the key of EX9E, EXA1; both log 14), D6 (families 5 and 9 and the
undefined words, log 12), D8 and D24 (FX0A, log 9). -/
def Obligations.PcAfterEachInstruction : Prop :=
  ∀ (i : Instr) (s t : State), exec i s = .next t →
    match i with
    | .seImm x nn => t.pc = if s.reg x = nn then s.pc + 2 else s.pc
    | .sneImm x nn => t.pc = if s.reg x = nn then s.pc else s.pc + 2
    | .seReg x y _ => t.pc = if s.reg x = s.reg y then s.pc + 2 else s.pc
    | .sneReg x y _ => t.pc = if s.reg x = s.reg y then s.pc else s.pc + 2
    | .skp x => t.pc = if s.keyIsDown (keySelect (s.reg x)) = true then s.pc + 2 else s.pc
    | .sknp x => t.pc = if s.keyIsDown (keySelect (s.reg x)) = true then s.pc else s.pc + 2
    | .jp nnn => t.pc.toNat = nnn.toNat
    | .call nnn => t.pc.toNat = nnn.toNat
    | .jpV0 nnn => t.pc.toNat = nnn.toNat + (s.reg 0).toNat
    | .ret => t.pc = s.pop16.1
    | .ldVxK _ => (KeyEventPending s → t.pc = s.pc) ∧ (¬ KeyEventPending s → t.pc = s.pc - 2)
    | _ => t.pc = s.pc

/-- 10_state R44, 60 R218: no instruction reads ST: from two states that differ in ST alone every instruction leaves
states that differ in ST alone, and FX18 the same state (which opcode writes ST is decision D17, log 15). -/
def Obligations.NoInstructionReadsTheSoundTimer : Prop :=
  ∀ (i : Instr) (s t : State) (v : Byte), exec i s = .next t →
    exec i (s.setSt v) = .next (match i with | .ldStVx _ => t | _ => t.setSt v)

/-- 10_state R41: KA "is read only by FX0A": every other instruction does the same whatever KA is, and leaves it. -/
def Obligations.OnlyWaitKeyReadsTheLatch : Prop :=
  ∀ (i : Instr) (s t : State) (b : Bool), (∀ x, i ≠ .ldVxK x) → exec i s = .next t →
    exec i (s.setKa b) = .next (t.setKa b)

/-- 10_state R42: "KA becomes 1 only in `key_up(code)` with a mapped code"; in particular no step raises it. -/
def Obligations.OnlyAMappedKeyUpRaisesTheLatch : Prop :=
  ∀ (o : Op) (s t : State) (r : Reply), perform o s = .next (t, r) → s.ka = false → t.ka = true →
    ∃ code k, o = .keyUp code ∧ (k, code) ∈ Config.keymap

/-- 10_state R39: key states "are written only by the host's key operations", each its own key. -/
def Obligations.OnlyKeyEventsWriteKeyStates : Prop :=
  ∀ (o : Op) (s t : State) (r : Reply) (k : Nibble), perform o s = .next (t, r) →
    t.keyIsDown k ≠ s.keyIsDown k →
    ∃ code, (k, code) ∈ Config.keymap ∧ (o = .keyDown code ∨ o = .keyUp code)
end

