-- ==== Sys2Proof/Laws/Decode.lean ====
section
/-! SUPPORT. The fields of a word put together from its format (30_encoding R92, R93), and what `encode` puts in them. -/

namespace Sys2Proof

/-! ### Two parts -/

theorem extract_append_high {m n : Nat} (a : BitVec m) (b : BitVec n) (start len : Nat) (h : n ≤ start) :
    (a ++ b).extractLsb' start len = a.extractLsb' (start - n) len := by
  apply BitVec.eq_of_getLsbD_eq
  intro i hi
  have h1 : ¬ start + i < n := by omega
  have h2 : start + i - n = start - n + i := by omega
  simp only [BitVec.getLsbD_extractLsb', BitVec.getLsbD_append, if_neg h1, h2]


theorem extract_append_low {m n : Nat} (a : BitVec m) (b : BitVec n) (start len : Nat) (h : start + len ≤ n) :
    (a ++ b).extractLsb' start len = b.extractLsb' start len := by
  apply BitVec.eq_of_getLsbD_eq
  intro i hi
  have h1 : start + i < n := by omega
  simp only [BitVec.getLsbD_extractLsb', BitVec.getLsbD_append, if_pos h1]

theorem extract_all {n : Nat} (a : BitVec n) : a.extractLsb' 0 n = a := by
  apply BitVec.eq_of_getLsbD_eq
  intro i hi
  simp [hi]

/-! ### Format NNN -/

@[simp] theorem opF_formatNNN (f : Nibble) (nnn : Imm12) : opF (f ++ nnn) = f :=
  (extract_append_high f nnn 12 4 (by omega)).trans (extract_all f)

@[simp] theorem opNNN_formatNNN (f : Nibble) (nnn : Imm12) : opNNN (f ++ nnn) = nnn :=
  (extract_append_low f nnn 0 12 (by omega)).trans (extract_all nnn)

/-! ### Formats XNN and XKK -/

@[simp] theorem opF_formatXNN (f x : Nibble) (nn : Byte) : opF (f ++ x ++ nn) = f :=
  ((extract_append_high (f ++ x) nn 12 4 (by omega)).trans (extract_append_high f x 4 4 (by omega))).trans
    (extract_all f)

@[simp] theorem opX_formatXNN (f x : Nibble) (nn : Byte) : opX (f ++ x ++ nn) = x :=
  ((extract_append_high (f ++ x) nn 8 4 (by omega)).trans (extract_append_low f x 0 4 (by omega))).trans
    (extract_all x)

@[simp] theorem opNN_formatXNN (f x : Nibble) (nn : Byte) : opNN (f ++ x ++ nn) = nn :=
  (extract_append_low (f ++ x) nn 0 8 (by omega)).trans (extract_all nn)

/-! ### Format XYN -/

@[simp] theorem opF_formatXYN (f x y n : Nibble) : opF (f ++ x ++ y ++ n) = f :=
  (((extract_append_high (f ++ x ++ y) n 12 4 (by omega)).trans (extract_append_high (f ++ x) y 8 4 (by omega))).trans
    (extract_append_high f x 4 4 (by omega))).trans (extract_all f)

@[simp] theorem opX_formatXYN (f x y n : Nibble) : opX (f ++ x ++ y ++ n) = x :=
  (((extract_append_high (f ++ x ++ y) n 8 4 (by omega)).trans (extract_append_high (f ++ x) y 4 4 (by omega))).trans
    (extract_append_low f x 0 4 (by omega))).trans (extract_all x)

@[simp] theorem opY_formatXYN (f x y n : Nibble) : opY (f ++ x ++ y ++ n) = y :=
  ((extract_append_high (f ++ x ++ y) n 4 4 (by omega)).trans (extract_append_low (f ++ x) y 0 4 (by omega))).trans
    (extract_all y)

@[simp] theorem opN_formatXYN (f x y n : Nibble) : opN (f ++ x ++ y ++ n) = n :=
  (extract_append_low (f ++ x ++ y) n 0 4 (by omega)).trans (extract_all n)

/-! ### A word is its fields -/

theorem word_eq_formatNNN (w : OpWord) : opF w ++ opNNN w = w := by
  apply BitVec.eq_of_getLsbD_eq
  intro i hi
  have h := BitVec.getLsbD_append (x := opF w) (y := opNNN w) (i := i)
  refine h.trans ?_
  simp only [opF, opNNN, BitVec.getLsbD_extractLsb']
  split
  · simp [*]
  · simp [show i - 12 < 4 by omega, show 12 + (i - 12) = i by omega]

theorem word_eq_formatXNN (w : OpWord) : opF w ++ opX w ++ opNN w = w := by
  apply BitVec.eq_of_getLsbD_eq
  intro i hi
  refine (BitVec.getLsbD_append (x := opF w ++ opX w) (y := opNN w) (i := i)).trans ?_
  split
  · simp [opNN, *]
  · refine (BitVec.getLsbD_append (x := opF w) (y := opX w) (i := i - 8)).trans ?_
    simp only [opF, opX, BitVec.getLsbD_extractLsb']
    split
    · simp [show 8 + (i - 8) = i by omega, *]
    · simp [show i - 8 - 4 < 4 by omega, show 12 + (i - 8 - 4) = i by omega]

theorem nn_eq_yn (w : OpWord) : opY w ++ opN w = opNN w := by
  apply BitVec.eq_of_getLsbD_eq
  intro i hi
  refine (BitVec.getLsbD_append (x := opY w) (y := opN w) (i := i)).trans ?_
  simp only [opY, opN, opNN, BitVec.getLsbD_extractLsb']
  split
  · simp [*]
  · simp [hi, show i - 4 < 4 by omega, show 4 + (i - 4) = i by omega]

theorem word_eq_formatXYN (w : OpWord) : opF w ++ opX w ++ opY w ++ opN w = w := by
  have h : opF w ++ opX w ++ opY w ++ opN w = opF w ++ opX w ++ (opY w ++ opN w) := by
    apply BitVec.eq_of_getLsbD_eq
    intro i hi
    refine (BitVec.getLsbD_append (x := opF w ++ opX w ++ opY w) (y := opN w) (i := i)).trans ?_
    refine Eq.trans ?_ (BitVec.getLsbD_append (x := opF w ++ opX w) (y := opY w ++ opN w) (i := i)).symm
    rw [BitVec.getLsbD_append (x := opF w ++ opX w) (y := opY w), BitVec.getLsbD_append (x := opY w) (y := opN w)]
    by_cases h4 : i < 4
    · simp [h4, show i < 8 by omega]
    · by_cases h8 : i < 8
      · simp [h4, h8, show i - 4 < 4 by omega]
      · simp [h4, h8, show ¬ i - 4 < 4 by omega, show i - 4 - 4 = i - 8 by omega]
  rw [h, nn_eq_yn]
  exact word_eq_formatXNN w

/-! ### What a mask of the opcode map keeps (30_encoding R96) -/

theorem and_maskF000 (w : OpWord) : w &&& 0xF000 = opF w ++ 0x000#12 := by
  apply BitVec.eq_of_getLsbD_eq
  intro i hi
  refine Eq.trans ?_ (BitVec.getLsbD_append (x := opF w) (y := 0x000#12) (i := i)).symm
  interval_cases i <;> simp [opF]

theorem and_maskF00F (w : OpWord) : w &&& 0xF00F = opF w ++ 0x0#4 ++ 0x0#4 ++ opN w := by
  apply BitVec.eq_of_getLsbD_eq
  intro i hi
  refine Eq.trans ?_ (BitVec.getLsbD_append (x := opF w ++ 0x0#4 ++ 0x0#4) (y := opN w) (i := i)).symm
  rw [BitVec.getLsbD_append (x := opF w ++ 0x0#4) (y := 0x0#4), BitVec.getLsbD_append (x := opF w) (y := 0x0#4)]
  interval_cases i <;> simp [opF, opN]

theorem and_maskF0FF (w : OpWord) : w &&& 0xF0FF = opF w ++ 0x0#4 ++ opNN w := by
  apply BitVec.eq_of_getLsbD_eq
  intro i hi
  refine Eq.trans ?_ (BitVec.getLsbD_append (x := opF w ++ 0x0#4) (y := opNN w) (i := i)).symm
  rw [BitVec.getLsbD_append (x := opF w) (y := 0x0#4)]
  interval_cases i <;> simp [opF, opNN]

end Sys2Proof
end

