-- ==== Sys2Proof/Laws/State.lean ====
section
/-! SUPPORT. One lemma per field per update of State, and what a read of a register, a key or a pixel gives after each update. -/

namespace Sys2Proof.Machine

/-! ### setReg -/

@[simp] theorem State.setReg_x (s : State) (r : Nibble) (v : Byte) : (s.setReg r v).x = s.x.set r.toNat v := rfl
@[simp] theorem State.setReg_iReg (s : State) (r : Nibble) (v : Byte) : (s.setReg r v).iReg = s.iReg := rfl
@[simp] theorem State.setReg_pc (s : State) (r : Nibble) (v : Byte) : (s.setReg r v).pc = s.pc := rfl
@[simp] theorem State.setReg_sp (s : State) (r : Nibble) (v : Byte) : (s.setReg r v).sp = s.sp := rfl
@[simp] theorem State.setReg_mem (s : State) (r : Nibble) (v : Byte) : (s.setReg r v).mem = s.mem := rfl
@[simp] theorem State.setReg_dt (s : State) (r : Nibble) (v : Byte) : (s.setReg r v).dt = s.dt := rfl
@[simp] theorem State.setReg_st (s : State) (r : Nibble) (v : Byte) : (s.setReg r v).st = s.st := rfl
@[simp] theorem State.setReg_disp (s : State) (r : Nibble) (v : Byte) : (s.setReg r v).disp = s.disp := rfl
@[simp] theorem State.setReg_key (s : State) (r : Nibble) (v : Byte) : (s.setReg r v).key = s.key := rfl
@[simp] theorem State.setReg_ka (s : State) (r : Nibble) (v : Byte) : (s.setReg r v).ka = s.ka := rfl
@[simp] theorem State.setReg_draws (s : State) (r : Nibble) (v : Byte) : (s.setReg r v).draws = s.draws := rfl
@[simp] theorem State.setReg_keyIsDown (s : State) (r : Nibble) (v : Byte) (q : Nibble) : (s.setReg r v).keyIsDown q = s.keyIsDown q := rfl
@[simp] theorem State.setReg_pixel (s : State) (r : Nibble) (v : Byte) (c : Fin 64) (l : Fin 32) : (s.setReg r v).pixel c l = s.pixel c l := rfl

/-! ### setI -/

@[simp] theorem State.setI_x (s : State) (v : Addr) : (s.setI v).x = s.x := rfl
@[simp] theorem State.setI_iReg (s : State) (v : Addr) : (s.setI v).iReg = v := rfl
@[simp] theorem State.setI_pc (s : State) (v : Addr) : (s.setI v).pc = s.pc := rfl
@[simp] theorem State.setI_sp (s : State) (v : Addr) : (s.setI v).sp = s.sp := rfl
@[simp] theorem State.setI_mem (s : State) (v : Addr) : (s.setI v).mem = s.mem := rfl
@[simp] theorem State.setI_dt (s : State) (v : Addr) : (s.setI v).dt = s.dt := rfl
@[simp] theorem State.setI_st (s : State) (v : Addr) : (s.setI v).st = s.st := rfl
@[simp] theorem State.setI_disp (s : State) (v : Addr) : (s.setI v).disp = s.disp := rfl
@[simp] theorem State.setI_key (s : State) (v : Addr) : (s.setI v).key = s.key := rfl
@[simp] theorem State.setI_ka (s : State) (v : Addr) : (s.setI v).ka = s.ka := rfl
@[simp] theorem State.setI_draws (s : State) (v : Addr) : (s.setI v).draws = s.draws := rfl
@[simp] theorem State.setI_reg (s : State) (v : Addr) (q : Nibble) : (s.setI v).reg q = s.reg q := rfl
@[simp] theorem State.setI_keyIsDown (s : State) (v : Addr) (q : Nibble) : (s.setI v).keyIsDown q = s.keyIsDown q := rfl
@[simp] theorem State.setI_pixel (s : State) (v : Addr) (c : Fin 64) (l : Fin 32) : (s.setI v).pixel c l = s.pixel c l := rfl

/-! ### setPc -/

@[simp] theorem State.setPc_x (s : State) (v : Addr) : (s.setPc v).x = s.x := rfl
@[simp] theorem State.setPc_iReg (s : State) (v : Addr) : (s.setPc v).iReg = s.iReg := rfl
@[simp] theorem State.setPc_pc (s : State) (v : Addr) : (s.setPc v).pc = v := rfl
@[simp] theorem State.setPc_sp (s : State) (v : Addr) : (s.setPc v).sp = s.sp := rfl
@[simp] theorem State.setPc_mem (s : State) (v : Addr) : (s.setPc v).mem = s.mem := rfl
@[simp] theorem State.setPc_dt (s : State) (v : Addr) : (s.setPc v).dt = s.dt := rfl
@[simp] theorem State.setPc_st (s : State) (v : Addr) : (s.setPc v).st = s.st := rfl
@[simp] theorem State.setPc_disp (s : State) (v : Addr) : (s.setPc v).disp = s.disp := rfl
@[simp] theorem State.setPc_key (s : State) (v : Addr) : (s.setPc v).key = s.key := rfl
@[simp] theorem State.setPc_ka (s : State) (v : Addr) : (s.setPc v).ka = s.ka := rfl
@[simp] theorem State.setPc_draws (s : State) (v : Addr) : (s.setPc v).draws = s.draws := rfl
@[simp] theorem State.setPc_reg (s : State) (v : Addr) (q : Nibble) : (s.setPc v).reg q = s.reg q := rfl
@[simp] theorem State.setPc_keyIsDown (s : State) (v : Addr) (q : Nibble) : (s.setPc v).keyIsDown q = s.keyIsDown q := rfl
@[simp] theorem State.setPc_pixel (s : State) (v : Addr) (c : Fin 64) (l : Fin 32) : (s.setPc v).pixel c l = s.pixel c l := rfl

/-! ### setSp -/

@[simp] theorem State.setSp_x (s : State) (v : Addr) : (s.setSp v).x = s.x := rfl
@[simp] theorem State.setSp_iReg (s : State) (v : Addr) : (s.setSp v).iReg = s.iReg := rfl
@[simp] theorem State.setSp_pc (s : State) (v : Addr) : (s.setSp v).pc = s.pc := rfl
@[simp] theorem State.setSp_sp (s : State) (v : Addr) : (s.setSp v).sp = v := rfl
@[simp] theorem State.setSp_mem (s : State) (v : Addr) : (s.setSp v).mem = s.mem := rfl
@[simp] theorem State.setSp_dt (s : State) (v : Addr) : (s.setSp v).dt = s.dt := rfl
@[simp] theorem State.setSp_st (s : State) (v : Addr) : (s.setSp v).st = s.st := rfl
@[simp] theorem State.setSp_disp (s : State) (v : Addr) : (s.setSp v).disp = s.disp := rfl
@[simp] theorem State.setSp_key (s : State) (v : Addr) : (s.setSp v).key = s.key := rfl
@[simp] theorem State.setSp_ka (s : State) (v : Addr) : (s.setSp v).ka = s.ka := rfl
@[simp] theorem State.setSp_draws (s : State) (v : Addr) : (s.setSp v).draws = s.draws := rfl
@[simp] theorem State.setSp_reg (s : State) (v : Addr) (q : Nibble) : (s.setSp v).reg q = s.reg q := rfl
@[simp] theorem State.setSp_keyIsDown (s : State) (v : Addr) (q : Nibble) : (s.setSp v).keyIsDown q = s.keyIsDown q := rfl
@[simp] theorem State.setSp_pixel (s : State) (v : Addr) (c : Fin 64) (l : Fin 32) : (s.setSp v).pixel c l = s.pixel c l := rfl

/-! ### setMem -/

@[simp] theorem State.setMem_x (s : State) (m : Memory) : (s.setMem m).x = s.x := rfl
@[simp] theorem State.setMem_iReg (s : State) (m : Memory) : (s.setMem m).iReg = s.iReg := rfl
@[simp] theorem State.setMem_pc (s : State) (m : Memory) : (s.setMem m).pc = s.pc := rfl
@[simp] theorem State.setMem_sp (s : State) (m : Memory) : (s.setMem m).sp = s.sp := rfl
@[simp] theorem State.setMem_mem (s : State) (m : Memory) : (s.setMem m).mem = m := rfl
@[simp] theorem State.setMem_dt (s : State) (m : Memory) : (s.setMem m).dt = s.dt := rfl
@[simp] theorem State.setMem_st (s : State) (m : Memory) : (s.setMem m).st = s.st := rfl
@[simp] theorem State.setMem_disp (s : State) (m : Memory) : (s.setMem m).disp = s.disp := rfl
@[simp] theorem State.setMem_key (s : State) (m : Memory) : (s.setMem m).key = s.key := rfl
@[simp] theorem State.setMem_ka (s : State) (m : Memory) : (s.setMem m).ka = s.ka := rfl
@[simp] theorem State.setMem_draws (s : State) (m : Memory) : (s.setMem m).draws = s.draws := rfl
@[simp] theorem State.setMem_reg (s : State) (m : Memory) (q : Nibble) : (s.setMem m).reg q = s.reg q := rfl
@[simp] theorem State.setMem_keyIsDown (s : State) (m : Memory) (q : Nibble) : (s.setMem m).keyIsDown q = s.keyIsDown q := rfl
@[simp] theorem State.setMem_pixel (s : State) (m : Memory) (c : Fin 64) (l : Fin 32) : (s.setMem m).pixel c l = s.pixel c l := rfl

/-! ### setDt -/

@[simp] theorem State.setDt_x (s : State) (v : Byte) : (s.setDt v).x = s.x := rfl
@[simp] theorem State.setDt_iReg (s : State) (v : Byte) : (s.setDt v).iReg = s.iReg := rfl
@[simp] theorem State.setDt_pc (s : State) (v : Byte) : (s.setDt v).pc = s.pc := rfl
@[simp] theorem State.setDt_sp (s : State) (v : Byte) : (s.setDt v).sp = s.sp := rfl
@[simp] theorem State.setDt_mem (s : State) (v : Byte) : (s.setDt v).mem = s.mem := rfl
@[simp] theorem State.setDt_dt (s : State) (v : Byte) : (s.setDt v).dt = v := rfl
@[simp] theorem State.setDt_st (s : State) (v : Byte) : (s.setDt v).st = s.st := rfl
@[simp] theorem State.setDt_disp (s : State) (v : Byte) : (s.setDt v).disp = s.disp := rfl
@[simp] theorem State.setDt_key (s : State) (v : Byte) : (s.setDt v).key = s.key := rfl
@[simp] theorem State.setDt_ka (s : State) (v : Byte) : (s.setDt v).ka = s.ka := rfl
@[simp] theorem State.setDt_draws (s : State) (v : Byte) : (s.setDt v).draws = s.draws := rfl
@[simp] theorem State.setDt_reg (s : State) (v : Byte) (q : Nibble) : (s.setDt v).reg q = s.reg q := rfl
@[simp] theorem State.setDt_keyIsDown (s : State) (v : Byte) (q : Nibble) : (s.setDt v).keyIsDown q = s.keyIsDown q := rfl
@[simp] theorem State.setDt_pixel (s : State) (v : Byte) (c : Fin 64) (l : Fin 32) : (s.setDt v).pixel c l = s.pixel c l := rfl

/-! ### setSt -/

@[simp] theorem State.setSt_x (s : State) (v : Byte) : (s.setSt v).x = s.x := rfl
@[simp] theorem State.setSt_iReg (s : State) (v : Byte) : (s.setSt v).iReg = s.iReg := rfl
@[simp] theorem State.setSt_pc (s : State) (v : Byte) : (s.setSt v).pc = s.pc := rfl
@[simp] theorem State.setSt_sp (s : State) (v : Byte) : (s.setSt v).sp = s.sp := rfl
@[simp] theorem State.setSt_mem (s : State) (v : Byte) : (s.setSt v).mem = s.mem := rfl
@[simp] theorem State.setSt_dt (s : State) (v : Byte) : (s.setSt v).dt = s.dt := rfl
@[simp] theorem State.setSt_st (s : State) (v : Byte) : (s.setSt v).st = v := rfl
@[simp] theorem State.setSt_disp (s : State) (v : Byte) : (s.setSt v).disp = s.disp := rfl
@[simp] theorem State.setSt_key (s : State) (v : Byte) : (s.setSt v).key = s.key := rfl
@[simp] theorem State.setSt_ka (s : State) (v : Byte) : (s.setSt v).ka = s.ka := rfl
@[simp] theorem State.setSt_draws (s : State) (v : Byte) : (s.setSt v).draws = s.draws := rfl
@[simp] theorem State.setSt_reg (s : State) (v : Byte) (q : Nibble) : (s.setSt v).reg q = s.reg q := rfl
@[simp] theorem State.setSt_keyIsDown (s : State) (v : Byte) (q : Nibble) : (s.setSt v).keyIsDown q = s.keyIsDown q := rfl
@[simp] theorem State.setSt_pixel (s : State) (v : Byte) (c : Fin 64) (l : Fin 32) : (s.setSt v).pixel c l = s.pixel c l := rfl

/-! ### setDisp -/

@[simp] theorem State.setDisp_x (s : State) (d : Display) : (s.setDisp d).x = s.x := rfl
@[simp] theorem State.setDisp_iReg (s : State) (d : Display) : (s.setDisp d).iReg = s.iReg := rfl
@[simp] theorem State.setDisp_pc (s : State) (d : Display) : (s.setDisp d).pc = s.pc := rfl
@[simp] theorem State.setDisp_sp (s : State) (d : Display) : (s.setDisp d).sp = s.sp := rfl
@[simp] theorem State.setDisp_mem (s : State) (d : Display) : (s.setDisp d).mem = s.mem := rfl
@[simp] theorem State.setDisp_dt (s : State) (d : Display) : (s.setDisp d).dt = s.dt := rfl
@[simp] theorem State.setDisp_st (s : State) (d : Display) : (s.setDisp d).st = s.st := rfl
@[simp] theorem State.setDisp_disp (s : State) (d : Display) : (s.setDisp d).disp = d := rfl
@[simp] theorem State.setDisp_key (s : State) (d : Display) : (s.setDisp d).key = s.key := rfl
@[simp] theorem State.setDisp_ka (s : State) (d : Display) : (s.setDisp d).ka = s.ka := rfl
@[simp] theorem State.setDisp_draws (s : State) (d : Display) : (s.setDisp d).draws = s.draws := rfl
@[simp] theorem State.setDisp_reg (s : State) (d : Display) (q : Nibble) : (s.setDisp d).reg q = s.reg q := rfl
@[simp] theorem State.setDisp_keyIsDown (s : State) (d : Display) (q : Nibble) : (s.setDisp d).keyIsDown q = s.keyIsDown q := rfl

/-! ### setKey -/

@[simp] theorem State.setKey_x (s : State) (k : Nibble) (b : Bool) : (s.setKey k b).x = s.x := rfl
@[simp] theorem State.setKey_iReg (s : State) (k : Nibble) (b : Bool) : (s.setKey k b).iReg = s.iReg := rfl
@[simp] theorem State.setKey_pc (s : State) (k : Nibble) (b : Bool) : (s.setKey k b).pc = s.pc := rfl
@[simp] theorem State.setKey_sp (s : State) (k : Nibble) (b : Bool) : (s.setKey k b).sp = s.sp := rfl
@[simp] theorem State.setKey_mem (s : State) (k : Nibble) (b : Bool) : (s.setKey k b).mem = s.mem := rfl
@[simp] theorem State.setKey_dt (s : State) (k : Nibble) (b : Bool) : (s.setKey k b).dt = s.dt := rfl
@[simp] theorem State.setKey_st (s : State) (k : Nibble) (b : Bool) : (s.setKey k b).st = s.st := rfl
@[simp] theorem State.setKey_disp (s : State) (k : Nibble) (b : Bool) : (s.setKey k b).disp = s.disp := rfl
@[simp] theorem State.setKey_key (s : State) (k : Nibble) (b : Bool) : (s.setKey k b).key = s.key.set k.toNat b := rfl
@[simp] theorem State.setKey_ka (s : State) (k : Nibble) (b : Bool) : (s.setKey k b).ka = s.ka := rfl
@[simp] theorem State.setKey_draws (s : State) (k : Nibble) (b : Bool) : (s.setKey k b).draws = s.draws := rfl
@[simp] theorem State.setKey_reg (s : State) (k : Nibble) (b : Bool) (q : Nibble) : (s.setKey k b).reg q = s.reg q := rfl
@[simp] theorem State.setKey_pixel (s : State) (k : Nibble) (b : Bool) (c : Fin 64) (l : Fin 32) : (s.setKey k b).pixel c l = s.pixel c l := rfl

/-! ### setKa -/

@[simp] theorem State.setKa_x (s : State) (b : Bool) : (s.setKa b).x = s.x := rfl
@[simp] theorem State.setKa_iReg (s : State) (b : Bool) : (s.setKa b).iReg = s.iReg := rfl
@[simp] theorem State.setKa_pc (s : State) (b : Bool) : (s.setKa b).pc = s.pc := rfl
@[simp] theorem State.setKa_sp (s : State) (b : Bool) : (s.setKa b).sp = s.sp := rfl
@[simp] theorem State.setKa_mem (s : State) (b : Bool) : (s.setKa b).mem = s.mem := rfl
@[simp] theorem State.setKa_dt (s : State) (b : Bool) : (s.setKa b).dt = s.dt := rfl
@[simp] theorem State.setKa_st (s : State) (b : Bool) : (s.setKa b).st = s.st := rfl
@[simp] theorem State.setKa_disp (s : State) (b : Bool) : (s.setKa b).disp = s.disp := rfl
@[simp] theorem State.setKa_key (s : State) (b : Bool) : (s.setKa b).key = s.key := rfl
@[simp] theorem State.setKa_ka (s : State) (b : Bool) : (s.setKa b).ka = b := rfl
@[simp] theorem State.setKa_draws (s : State) (b : Bool) : (s.setKa b).draws = s.draws := rfl
@[simp] theorem State.setKa_reg (s : State) (b : Bool) (q : Nibble) : (s.setKa b).reg q = s.reg q := rfl
@[simp] theorem State.setKa_keyIsDown (s : State) (b : Bool) (q : Nibble) : (s.setKa b).keyIsDown q = s.keyIsDown q := rfl
@[simp] theorem State.setKa_pixel (s : State) (b : Bool) (c : Fin 64) (l : Fin 32) : (s.setKa b).pixel c l = s.pixel c l := rfl

/-! ### setDraws -/

@[simp] theorem State.setDraws_x (s : State) (n : Nat) : (s.setDraws n).x = s.x := rfl
@[simp] theorem State.setDraws_iReg (s : State) (n : Nat) : (s.setDraws n).iReg = s.iReg := rfl
@[simp] theorem State.setDraws_pc (s : State) (n : Nat) : (s.setDraws n).pc = s.pc := rfl
@[simp] theorem State.setDraws_sp (s : State) (n : Nat) : (s.setDraws n).sp = s.sp := rfl
@[simp] theorem State.setDraws_mem (s : State) (n : Nat) : (s.setDraws n).mem = s.mem := rfl
@[simp] theorem State.setDraws_dt (s : State) (n : Nat) : (s.setDraws n).dt = s.dt := rfl
@[simp] theorem State.setDraws_st (s : State) (n : Nat) : (s.setDraws n).st = s.st := rfl
@[simp] theorem State.setDraws_disp (s : State) (n : Nat) : (s.setDraws n).disp = s.disp := rfl
@[simp] theorem State.setDraws_key (s : State) (n : Nat) : (s.setDraws n).key = s.key := rfl
@[simp] theorem State.setDraws_ka (s : State) (n : Nat) : (s.setDraws n).ka = s.ka := rfl
@[simp] theorem State.setDraws_draws (s : State) (n : Nat) : (s.setDraws n).draws = n := rfl
@[simp] theorem State.setDraws_reg (s : State) (n : Nat) (q : Nibble) : (s.setDraws n).reg q = s.reg q := rfl
@[simp] theorem State.setDraws_keyIsDown (s : State) (n : Nat) (q : Nibble) : (s.setDraws n).keyIsDown q = s.keyIsDown q := rfl
@[simp] theorem State.setDraws_pixel (s : State) (n : Nat) (c : Fin 64) (l : Fin 32) : (s.setDraws n).pixel c l = s.pixel c l := rfl
/-! ### Reads after the write of the same kind -/

/-- A register read after a register write (10_state R20). -/
@[simp] theorem State.reg_setReg (s : State) (r q : Nibble) (v : Byte) :
    (s.setReg r v).reg q = if q = r then v else s.reg q := by
  unfold State.reg State.setReg
  rw [Vector.getElem_set]
  by_cases h : q = r
  · simp [h]
  · rw [if_neg h, if_neg (fun e => h (BitVec.eq_of_toNat_eq e.symm))]

/-- A key state read after a key state write (10_state R39). -/
@[simp] theorem State.keyIsDown_setKey (s : State) (k q : Nibble) (b : Bool) :
    (s.setKey k b).keyIsDown q = if q = k then b else s.keyIsDown q := by
  unfold State.keyIsDown State.setKey
  rw [Vector.getElem_set]
  by_cases h : q = k
  · simp [h]
  · rw [if_neg h, if_neg (fun e => h (BitVec.eq_of_toNat_eq e.symm))]

/-- The display read after all of it was written. -/
@[simp] theorem State.setDisp_pixel (s : State) (d : Display) (c : Fin 64) (l : Fin 32) :
    (s.setDisp d).pixel c l = Display.pixel d c l := rfl

/-- A pixel read after a pixel write (10_state R37). -/
@[simp] theorem Display.pixel_setPixel (d : Display) (x c : Fin 64) (y l : Fin 32) (b : Bool) :
    Display.pixel (Display.setPixel d x y b) c l = if c = x ∧ l = y then b else Display.pixel d c l := by
  unfold Display.pixel Display.setPixel
  by_cases hl : l = y
  · subst hl
    by_cases hc : c = x
    · subst hc; simp
    · have : x.val ≠ c.val := fun e => hc (Fin.ext e.symm)
      simp [hc, this]
  · have : y.val ≠ l.val := fun e => hl (Fin.ext e.symm)
    simp [hl, this]

/-- Every pixel of the cleared display is 0 (43 R170). -/
@[simp] theorem Display.pixel_clear (c : Fin 64) (l : Fin 32) : Display.pixel Display.clear c l = false := by
  simp [Display.pixel, Display.clear]

/-- Two registers' contents are equal when every register reads the same. -/
theorem State.x_ext (s t : State) (h : ∀ r, t.reg r = s.reg r) : t.x = s.x := by
  apply Vector.ext
  intro i hi
  have := h (BitVec.ofNat 4 i)
  simpa [State.reg, Nat.mod_eq_of_lt hi] using this

/-- Two displays are equal when every pixel is. -/
theorem Display.ext_pixel (d e : Display) (h : ∀ c l, Display.pixel d c l = Display.pixel e c l) : d = e := by
  apply Vector.ext
  intro l hl
  apply Vector.ext
  intro c hc
  exact h ⟨c, hc⟩ ⟨l, hl⟩

/-- Two key arrays are equal when every key reads the same. -/
theorem State.key_ext (s t : State) (h : ∀ k, t.keyIsDown k = s.keyIsDown k) : t.key = s.key := by
  apply Vector.ext
  intro i hi
  have := h (BitVec.ofNat 4 i)
  simpa [State.keyIsDown, Nat.mod_eq_of_lt hi] using this

/-! ### Updates that cancel -/

@[simp] theorem State.setPc_setPc (s : State) (v w : Addr) : (s.setPc v).setPc w = s.setPc w := rfl
@[simp] theorem State.setPc_pc_self (s : State) : s.setPc s.pc = s := rfl
@[simp] theorem State.setMem_self (s : State) : s.setMem s.mem = s := rfl
@[simp] theorem State.setMem_setMem (s : State) (m n : Memory) : (s.setMem m).setMem n = s.setMem n := rfl

/-! ### Reset -/

@[simp] theorem State.resetAt_reg (a : Addr) (h : Config.ValidStart a) (r : Nibble) :
    (State.resetAt a h).reg r = 0 := by
  simp [State.resetAt, State.reg]
@[simp] theorem State.resetAt_keyIsDown (a : Addr) (h : Config.ValidStart a) (k : Nibble) :
    (State.resetAt a h).keyIsDown k = false := by
  simp [State.resetAt, State.keyIsDown]
@[simp] theorem State.resetAt_pixel (a : Addr) (h : Config.ValidStart a) (c : Fin 64) (l : Fin 32) :
    (State.resetAt a h).pixel c l = false := by
  simp [State.resetAt, State.pixel, Display.pixel]
@[simp] theorem State.resetAt_mem (a : Addr) (h : Config.ValidStart a) : (State.resetAt a h).mem = [] := rfl

end Sys2Proof.Machine
end

