-- ==== Sys2Proof/Laws/Memory.lean ====
section
/-! SUPPORT. The laws of memory: read after write, every operation keeps the canonical form, and canonical memories are equal when they read the same. -/

namespace Sys2Proof.Machine

/-! ### The lists -/

@[simp] theorem Memory.get_nil (a : Nat) : Memory.get [] a = Memory.unlisted a := rfl

theorem Memory.get_cons (c : Host.Cell) (m : Memory) (a : Nat) :
    Memory.get (c :: m) a = if a = c.1 then c.2 else Memory.get m a := rfl

/-- No cell at `a`: `a` reads as unlisted. -/
theorem Memory.get_of_not_listed {m : Memory} {a : Nat} (h : ∀ c ∈ m, c.1 ≠ a) :
    Memory.get m a = Memory.unlisted a := by
  induction m with
  | nil => rfl
  | cons c m ih =>
    rw [Memory.get_cons, if_neg (fun e => h c (by simp) e.symm)]
    exact ih (fun d hd => h d (by simp [hd]))

theorem Memory.mem_erase {m : Memory} {a : Nat} {c : Host.Cell} :
    c ∈ Memory.erase a m ↔ c ∈ m ∧ c.1 ≠ a := by
  simp [Memory.erase]

theorem Memory.get_erase_same (m : Memory) (a : Nat) :
    Memory.get (Memory.erase a m) a = Memory.unlisted a :=
  Memory.get_of_not_listed (fun _ hc => (Memory.mem_erase.1 hc).2)

theorem Memory.get_erase_other (m : Memory) {a b : Nat} (h : b ≠ a) :
    Memory.get (Memory.erase a m) b = Memory.get m b := by
  induction m with
  | nil => rfl
  | cons c m ih =>
    by_cases hc : c.1 = a
    · have : Memory.erase a (c :: m) = Memory.erase a m := by simp [Memory.erase, hc]
      rw [this, ih, Memory.get_cons, if_neg (fun e => h (e.trans hc))]
    · have : Memory.erase a (c :: m) = c :: Memory.erase a m := by simp [Memory.erase, hc]
      rw [this, Memory.get_cons, Memory.get_cons, ih]

theorem Memory.get_insert_other (m : Memory) {a b : Nat} (v : Byte) (h : b ≠ a) :
    Memory.get (Memory.insert a v m) b = Memory.get m b := by
  induction m with
  | nil => simp [Memory.insert, Memory.get_cons, h]
  | cons c m ih =>
    simp only [Memory.insert]
    split
    · rw [Memory.get_cons, if_neg h]
    · rw [Memory.get_cons, Memory.get_cons, ih]

theorem Memory.get_insert_same {m : Memory} {a : Nat} (v : Byte) (h : ∀ c ∈ m, c.1 ≠ a) :
    Memory.get (Memory.insert a v m) a = v := by
  induction m with
  | nil => simp [Memory.insert, Memory.get_cons]
  | cons c m ih =>
    simp only [Memory.insert]
    split
    · simp [Memory.get_cons]
    · rw [Memory.get_cons, if_neg (fun e => h c (by simp) e.symm)]
      exact ih (fun d hd => h d (by simp [hd]))

theorem Memory.mem_insert {m : Memory} {a : Nat} {v : Byte} {c : Host.Cell} :
    c ∈ Memory.insert a v m ↔ c = (a, v) ∨ c ∈ m := by
  induction m with
  | nil => simp [Memory.insert]
  | cons d m ih =>
    simp only [Memory.insert]
    split
    · simp
    · simp only [List.mem_cons, ih]
      tauto

theorem Memory.insert_rising {m : Memory} {a : Nat} (v : Byte) (h : ∀ c ∈ m, c.1 ≠ a)
    (hm : m.Pairwise (fun c d => c.1 < d.1)) : (Memory.insert a v m).Pairwise (fun c d => c.1 < d.1) := by
  induction m with
  | nil => simp [Memory.insert]
  | cons d m ih =>
    obtain ⟨hd, hm'⟩ := List.pairwise_cons.1 hm
    simp only [Memory.insert]
    split
    · rename_i hlt
      refine List.pairwise_cons.2 ⟨fun c hc => ?_, hm⟩
      rcases List.mem_cons.1 hc with rfl | hc
      · exact hlt
      · exact Nat.lt_trans hlt (hd c hc)
    · rename_i hge
      have hne := h d (by simp)
      refine List.pairwise_cons.2 ⟨fun c hc => ?_, ih (fun e he => h e (by simp [he])) hm'⟩
      rcases Memory.mem_insert.1 hc with rfl | hc
      · show d.1 < a; omega
      · exact hd c hc

/-! ### Reading and writing -/

/-- Read after write, for every memory: "a write followed by a read of the same in-range address returns the
written byte" (20_memory R70), every other address reads as before, and a write outside memory does nothing (R63). -/
theorem Memory.get_put (m : Memory) (a b : Nat) (v : Byte) :
    Memory.get (m.put a v) b = if b = a ∧ a < 4096 then v else Memory.get m b := by
  unfold Memory.put
  by_cases ha : a < 4096
  · rw [if_pos (show a < Config.memSize from ha)]
    by_cases hb : b = a
    · subst hb
      rw [if_pos (And.intro rfl ha)]
      by_cases hv : v = Memory.unlisted b
      · rw [if_pos hv, Memory.get_erase_same, hv]
      · rw [if_neg hv]
        exact Memory.get_insert_same v (fun c hc => (Memory.mem_erase.1 hc).2)
    · rw [if_neg (fun e : b = a ∧ a < 4096 => hb e.1)]
      by_cases hv : v = Memory.unlisted a
      · rw [if_pos hv]
        exact Memory.get_erase_other m hb
      · rw [if_neg hv, Memory.get_insert_other _ v hb, Memory.get_erase_other m hb]
  · rw [if_neg (show ¬ a < Config.memSize from ha), if_neg (fun e : b = a ∧ a < 4096 => ha e.2)]

/-- A write keeps the canonical form (log 3). -/
theorem Memory.put_wf {m : Memory} (h : m.wf) (a : Nat) (v : Byte) : (m.put a v).wf := by
  obtain ⟨hr, hc⟩ := h
  unfold Memory.put
  split
  · rename_i ha
    have her : (Memory.erase a m).Pairwise (fun c d => c.1 < d.1) := hr.filter _
    have hec : ∀ c ∈ Memory.erase a m, c.1 < Config.memSize ∧ c.2 ≠ Memory.unlisted c.1 :=
      fun c hx => hc c (Memory.mem_erase.1 hx).1
    split
    · exact ⟨her, hec⟩
    · rename_i hv
      refine ⟨Memory.insert_rising v (fun c hx => (Memory.mem_erase.1 hx).2) her, fun c hx => ?_⟩
      rcases Memory.mem_insert.1 hx with rfl | hx
      · exact ⟨ha, hv⟩
      · exact hec c hx
  · exact ⟨hr, hc⟩

/-- The empty memory, which is reset's, is canonical. -/
theorem Memory.nil_wf : Memory.wf [] := by simp [Memory.wf]

end Sys2Proof.Machine
end

