-- ==== Sys2Proof/Laws/Ops.lean ====
section
/-! SUPPORT. One lemma per shared operation that says everything it can do: memory access, fetch, stack, block copies, drawing, the key search, the flagged write. -/

namespace Sys2Proof.Machine

/-! ### MemWrite (20_memory R63) -/

@[simp] theorem State.memWrite_x (s : State) (a : Addr) (v : Byte) : (s.memWrite a v).x = s.x := rfl
@[simp] theorem State.memWrite_reg (s : State) (a : Addr) (v : Byte) (r : Nibble) : (s.memWrite a v).reg r = s.reg r := rfl
@[simp] theorem State.memWrite_iReg (s : State) (a : Addr) (v : Byte) : (s.memWrite a v).iReg = s.iReg := rfl
@[simp] theorem State.memWrite_pc (s : State) (a : Addr) (v : Byte) : (s.memWrite a v).pc = s.pc := rfl
@[simp] theorem State.memWrite_sp (s : State) (a : Addr) (v : Byte) : (s.memWrite a v).sp = s.sp := rfl
@[simp] theorem State.memWrite_dt (s : State) (a : Addr) (v : Byte) : (s.memWrite a v).dt = s.dt := rfl
@[simp] theorem State.memWrite_st (s : State) (a : Addr) (v : Byte) : (s.memWrite a v).st = s.st := rfl
@[simp] theorem State.memWrite_disp (s : State) (a : Addr) (v : Byte) : (s.memWrite a v).disp = s.disp := rfl
@[simp] theorem State.memWrite_pixel (s : State) (a : Addr) (v : Byte) (c : Fin 64) (l : Fin 32) :
    (s.memWrite a v).pixel c l = s.pixel c l := rfl
@[simp] theorem State.memWrite_key (s : State) (a : Addr) (v : Byte) : (s.memWrite a v).key = s.key := rfl
@[simp] theorem State.memWrite_keyIsDown (s : State) (a : Addr) (v : Byte) (k : Nibble) :
    (s.memWrite a v).keyIsDown k = s.keyIsDown k := rfl
@[simp] theorem State.memWrite_ka (s : State) (a : Addr) (v : Byte) : (s.memWrite a v).ka = s.ka := rfl
@[simp] theorem State.memWrite_draws (s : State) (a : Addr) (v : Byte) : (s.memWrite a v).draws = s.draws := rfl

/-- Everything MemWrite does to memory: the one byte, if it is inside memory. -/
@[simp] theorem State.memWrite_get (s : State) (a : Addr) (v : Byte) (b : Nat) :
    (s.memWrite a v).mem.get b = if b = a.toNat ∧ a.toNat < 4096 then v else s.mem.get b :=
  Memory.get_put s.mem a.toNat b v

theorem State.memWrite_wf {s : State} (h : s.mem.wf) (a : Addr) (v : Byte) : (s.memWrite a v).mem.wf :=
  Memory.put_wf h a.toNat v

/-! ### MemRead (20_memory R62) and fetch (R64) -/

theorem State.memRead_inside (s : State) {a : Addr} (h : a.toNat < 4096) :
    s.memRead a = (s.mem.get a.toNat, s) := if_pos h

theorem State.memRead_outside (s : State) {a : Addr} (h : ¬ a.toNat < 4096) :
    s.memRead a = (Config.oobRead s.draws, s.setDraws (s.draws + 1)) := if_neg h

/-- Everything MemRead does to the state: at most a free value is counted. -/
theorem State.memRead_state (s : State) (a : Addr) : ∃ n, (s.memRead a).2 = s.setDraws n := by
  by_cases h : a.toNat < 4096
  · exact ⟨s.draws, by rw [State.memRead_inside s h]; rfl⟩
  · exact ⟨s.draws + 1, by rw [State.memRead_outside s h]⟩

/-- What MemRead answers depends on memory and on the counter of free values alone. -/
theorem State.memRead_congr {s t : State} (a : Addr) (hm : t.mem = s.mem) (hd : t.draws = s.draws) :
    (t.memRead a).1 = (s.memRead a).1 := by
  unfold State.memRead
  rw [hm, hd]
  split <;> rfl

/-- Fetch with pc in range: the word at pc, and no other effect. -/
theorem State.fetch_inside (s : State) (h : s.pc.toNat + 2 ≤ 4096) :
    s.fetch = (s.mem.get s.pc.toNat ++ s.mem.get (s.pc + 1).toNat, s) := by
  have h1 : (s.pc + 1).toNat < 4096 := by
    rw [BitVec.toNat_add]; simp; omega
  simp only [State.fetch, State.memRead_inside s (show s.pc.toNat < 4096 by omega), State.memRead_inside s h1]

/-- Everything a fetch does to the state: at most free values are counted. -/
theorem State.fetch_state (s : State) : ∃ n, s.fetch.2 = s.setDraws n := by
  obtain ⟨n, hn⟩ := s.memRead_state s.pc
  obtain ⟨m, hm⟩ := (s.memRead s.pc).2.memRead_state (s.pc + 1)
  exact ⟨m, by unfold State.fetch; simp only; rw [hm, hn]; rfl⟩

/-- A word is its two bytes, most significant first (20_memory R64). -/
theorem hiByte_append_loByte (w : OpWord) : hiByte w ++ loByte w = w := by
  apply BitVec.eq_of_getLsbD_eq
  intro i hi
  simp only [hiByte, loByte, BitVec.getLsbD_append, BitVec.getLsbD_extractLsb']
  split
  · simp [*]
  · have : i - 8 < 8 := by omega
    simp [this, show 8 + (i - 8) = i by omega]

@[simp] theorem hiByte_append (a b : Byte) : hiByte (a ++ b) = a := by
  apply BitVec.eq_of_getLsbD_eq
  intro i hi
  have h := BitVec.getLsbD_append (x := a) (y := b) (i := 8 + i)
  simp only [hiByte, BitVec.getLsbD_extractLsb', hi, decide_true, Bool.true_and]
  simpa using h

@[simp] theorem loByte_append (a b : Byte) : loByte (a ++ b) = b := by
  apply BitVec.eq_of_getLsbD_eq
  intro i hi
  have h := BitVec.getLsbD_append (x := a) (y := b) (i := i)
  simp only [loByte, BitVec.getLsbD_extractLsb', hi, decide_true, Bool.true_and, Nat.zero_add]
  simpa [hi] using h

/-! ### Skip (40_flow R130) -/

/-- Everything a skip does: pc alone. -/
theorem State.skipIf_eq (s : State) (c : Bool) :
    s.skipIf c = s.setPc (if c then s.pc + 2 else s.pc) := by
  cases c <;> rfl

/-! ### The stack (20_memory R66, R67) -/

/-- Everything Push16 does: two bytes and sp. -/
theorem State.push16_eq (s : State) (v : Addr) :
    s.push16 v = ((s.memWrite s.sp (hiByte v)).memWrite (s.sp - 1) (loByte v)).setSp (s.sp - 2) := by
  have h : s.sp - 1 - 1 = s.sp - 2 := by rw [BitVec.sub_sub]; rfl
  simp only [State.push16, State.push8, State.setSp_sp, State.memWrite, State.setSp_mem, State.setMem_mem, h]
  rfl

/-- Pop16 with both bytes inside memory. -/
theorem State.pop16_inside (s : State) (h1 : (s.sp + 1).toNat < 4096) (h2 : (s.sp + 2).toNat < 4096) :
    s.pop16 = (s.mem.get (s.sp + 2).toNat ++ s.mem.get (s.sp + 1).toNat, s.setSp (s.sp + 2)) := by
  have e : s.sp + 1 + 1 = s.sp + 2 := by rw [BitVec.add_assoc]; rfl
  unfold State.pop16 State.pop8
  rw [State.memRead_inside _ h1]
  simp only [State.setSp_sp, State.setSp_mem]
  rw [e, State.memRead_inside _ h2]
  rfl

/-- Everything Pop16 does: sp, and free values counted; the bytes inside memory are memory's. -/
theorem State.pop16_cases (s : State) : ∃ lo hi n,
    s.pop16 = (hi ++ lo, (s.setSp (s.sp + 2)).setDraws n) ∧
    ((s.sp + 1).toNat < 4096 → lo = s.mem.get (s.sp + 1).toNat) ∧
    ((s.sp + 2).toNat < 4096 → hi = s.mem.get (s.sp + 2).toNat) := by
  have e : s.sp + 1 + 1 = s.sp + 2 := by rw [BitVec.add_assoc]; rfl
  obtain ⟨n, hn⟩ := (s.setSp (s.sp + 1)).memRead_state (s.sp + 1)
  obtain ⟨m, hm⟩ := (((s.setSp (s.sp + 1)).setDraws n).setSp (s.sp + 2)).memRead_state (s.sp + 2)
  refine ⟨((s.setSp (s.sp + 1)).memRead (s.sp + 1)).1,
    ((((s.setSp (s.sp + 1)).setDraws n).setSp (s.sp + 2)).memRead (s.sp + 2)).1, m, ?_, ?_, ?_⟩
  · unfold State.pop16 State.pop8
    simp only [hn, State.setDraws_sp, State.setSp_sp, e, hm]
    rfl
  · intro h; rw [State.memRead_inside _ h]; rfl
  · intro h; rw [State.memRead_inside _ h]; rfl

/-! ### Block copies (42 R164, R165) -/

theorem addr_add_toNat_inj {base : Addr} {j k : Nat} (hj : j < 65536) (hk : k < 65536)
    (h : (base + BitVec.ofNat 16 j).toNat = (base + BitVec.ofNat 16 k).toNat) : j = k := by
  have := BitVec.eq_of_toNat_eq h
  have := congrArg BitVec.toNat (BitVec.add_right_inj base |>.1 this)
  simpa [Nat.mod_eq_of_lt hj, Nat.mod_eq_of_lt hk] using this

/-- A block store touches memory alone. -/
theorem State.storeFrom_state (base : Addr) (n : Nat) (s : State) :
    ∃ m, State.storeFrom base n s = s.setMem m := by
  induction n with
  | zero => exact ⟨s.mem, rfl⟩
  | succ n ih =>
    obtain ⟨m, hm⟩ := ih
    refine ⟨m.put (base + BitVec.ofNat 16 n).toNat (s.reg (BitVec.ofNat 4 n)), ?_⟩
    simp only [State.storeFrom, hm]
    rfl

@[simp] theorem State.storeFrom_reg (base : Addr) (n : Nat) (s : State) (r : Nibble) :
    (State.storeFrom base n s).reg r = s.reg r := by
  obtain ⟨m, hm⟩ := State.storeFrom_state base n s
  rw [hm]; rfl

/-- A block store: register `k` is at `base + k`, if that is inside memory. -/
theorem State.storeFrom_get_stored (base : Addr) (s : State) :
    ∀ n ≤ 16, ∀ k < n, (base + BitVec.ofNat 16 k).toNat < 4096 →
      (State.storeFrom base n s).mem.get (base + BitVec.ofNat 16 k).toNat = s.reg (BitVec.ofNat 4 k) := by
  intro n
  induction n with
  | zero => intro _ k hk; omega
  | succ n ih =>
    intro hn k hk hin
    simp only [State.storeFrom, State.memWrite_get, State.storeFrom_reg]
    by_cases hkn : k = n
    · subst hkn; rw [if_pos ⟨rfl, hin⟩]
    · rw [if_neg (fun e => hkn (addr_add_toNat_inj (by omega) (by omega) e.1))]
      exact ih (by omega) k (by omega) hin

/-- A block store leaves every other byte alone, and drops what is outside memory. -/
theorem State.storeFrom_get_other (base : Addr) (s : State) (b : Nat) :
    ∀ n, (∀ k < n, b = (base + BitVec.ofNat 16 k).toNat → ¬ b < 4096) →
      (State.storeFrom base n s).mem.get b = s.mem.get b := by
  intro n
  induction n with
  | zero => intro _; rfl
  | succ n ih =>
    intro h
    simp only [State.storeFrom, State.memWrite_get]
    rw [if_neg (fun e : _ ∧ _ => h n (by omega) e.1 (e.1 ▸ e.2))]
    exact ih (fun k hk => h k (by omega))

theorem State.storeFrom_wf (base : Addr) (n : Nat) {s : State} (h : s.mem.wf) :
    (State.storeFrom base n s).mem.wf := by
  induction n with
  | zero => exact h
  | succ n ih => exact State.memWrite_wf ih _ _

/-- A block load touches registers and the counter of free values alone. -/
theorem State.loadFrom_state (base : Addr) (n : Nat) (s : State) :
    ∃ x d, State.loadFrom base n s = { s with x := x, draws := d } := by
  induction n with
  | zero => exact ⟨s.x, s.draws, rfl⟩
  | succ n ih =>
    obtain ⟨x, d, hxd⟩ := ih
    obtain ⟨m, hm⟩ := (State.loadFrom base n s).memRead_state (base + BitVec.ofNat 16 n)
    simp only [State.loadFrom, hm]
    rw [hxd]
    exact ⟨_, _, rfl⟩

theorem ofNat4_ne {j k : Nat} (hj : j < 16) (hk : k < 16) (h : j ≠ k) : BitVec.ofNat 4 j ≠ BitVec.ofNat 4 k := by
  intro e
  have := congrArg BitVec.toNat e
  simp [Nat.mod_eq_of_lt hj, Nat.mod_eq_of_lt hk] at this
  exact h this

@[simp] theorem State.loadFrom_mem (base : Addr) (n : Nat) (s : State) : (State.loadFrom base n s).mem = s.mem := by
  obtain ⟨x, d, h⟩ := State.loadFrom_state base n s
  rw [h]

/-- A block load: register `k` holds the byte at `base + k`, if that is inside memory. -/
theorem State.loadFrom_reg_loaded (base : Addr) (s : State) :
    ∀ n ≤ 16, ∀ k < n, (base + BitVec.ofNat 16 k).toNat < 4096 →
      (State.loadFrom base n s).reg (BitVec.ofNat 4 k) = s.mem.get (base + BitVec.ofNat 16 k).toNat := by
  intro n
  induction n with
  | zero => intro _ k hk; omega
  | succ n ih =>
    intro hn k hk hin
    simp only [State.loadFrom, State.reg_setReg]
    by_cases hkn : k = n
    · subst hkn
      rw [if_pos rfl, State.memRead_inside _ hin, State.loadFrom_mem]
    · rw [if_neg (ofNat4_ne (by omega) (by omega) hkn)]
      obtain ⟨m, hm⟩ := (State.loadFrom base n s).memRead_state (base + BitVec.ofNat 16 n)
      rw [hm, State.setDraws_reg]
      exact ih (by omega) k (by omega) hin

/-- A block load leaves every register it does not name alone. -/
theorem State.loadFrom_reg_other (base : Addr) (s : State) (r : Nibble) :
    ∀ n ≤ 16, n ≤ r.toNat → (State.loadFrom base n s).reg r = s.reg r := by
  intro n
  induction n with
  | zero => intro _ _; rfl
  | succ n ih =>
    intro hn hr
    have hne : r ≠ BitVec.ofNat 4 n := by
      intro e; rw [e] at hr; simp [Nat.mod_eq_of_lt (show n < 16 by omega)] at hr
    obtain ⟨m, hm⟩ := (State.loadFrom base n s).memRead_state (base + BitVec.ofNat 16 n)
    simp only [State.loadFrom, State.reg_setReg, if_neg hne, hm, State.setDraws_reg]
    exact ih (by omega) (by omega)

/-- A block load wholly inside memory draws no free value. -/
theorem State.loadFrom_draws_inside (base : Addr) (s : State) :
    ∀ n, (∀ k < n, (base + BitVec.ofNat 16 k).toNat < 4096) → (State.loadFrom base n s).draws = s.draws := by
  intro n
  induction n with
  | zero => intro _; rfl
  | succ n ih =>
    intro h
    simp only [State.loadFrom, State.setReg_draws]
    rw [State.memRead_inside _ (h n (by omega))]
    exact ih (fun k hk => h k (by omega))

/-! ### Drawing (43 R171 to R174) -/

/-- Everything drawing a row does: in row `y`, the columns the bits reach are XORed (43 R171, R172) and the ones
right of the edge are skipped (R173); a collision is a bit 1 over a pixel that was 1 (R174). -/
theorem Display.drawBits_spec (row : Byte) (x0 : Nat) (y : Fin 32) (d : Display) (n : Nat) :
    (∀ c l, Display.pixel (Display.drawBits row x0 y n d).1 c l =
      (Display.pixel d c l ^^ (decide (l = y ∧ x0 ≤ c.val ∧ c.val < x0 + n) && row.getLsbD (7 - (c.val - x0))))) ∧
    ((Display.drawBits row x0 y n d).2 = true ↔
      ∃ c : Fin 64, x0 ≤ c.val ∧ c.val < x0 + n ∧ row.getLsbD (7 - (c.val - x0)) = true ∧
        Display.pixel d c y = true) := by
  induction n with
  | zero =>
    constructor
    · intro c l
      have : ¬ (l = y ∧ x0 ≤ c.val ∧ c.val < x0 + 0) := fun h => by omega
      simp only [Display.drawBits, decide_eq_false this, Bool.false_and, Bool.xor_false]
    · constructor
      · intro h; cases h
      · rintro ⟨c, h1, h2, -⟩; omega
  | succ n ih =>
    obtain ⟨ihp, ihc⟩ := ih
    simp only [Display.drawBits]
    by_cases hx : x0 + n < 64
    · rw [dif_pos (show x0 + n < Config.dispW from hx)]
      have hold : Display.pixel (Display.drawBits row x0 y n d).1 ⟨x0 + n, hx⟩ y =
          Display.pixel d ⟨x0 + n, hx⟩ y := by
        rw [ihp]; simp
      constructor
      · intro c l
        simp only [Display.pixel_setPixel]
        by_cases hcl : c = ⟨x0 + n, hx⟩ ∧ l = y
        · obtain ⟨rfl, rfl⟩ := hcl
          rw [if_pos ⟨rfl, rfl⟩, hold]
          simp
        · rw [if_neg hcl, ihp]
          congr 2
          apply decide_eq_decide.2
          constructor
          · rintro ⟨h1, h2, h3⟩; exact ⟨h1, h2, by omega⟩
          · rintro ⟨h1, h2, h3⟩
            refine ⟨h1, h2, ?_⟩
            have : c.val ≠ x0 + n := fun e => hcl ⟨Fin.ext e, h1⟩
            omega
      · simp only [Bool.or_eq_true, Bool.and_eq_true, ihc, hold]
        constructor
        · rintro (⟨c, h1, h2, h3, h4⟩ | ⟨h3, h4⟩)
          · exact ⟨c, h1, by omega, h3, h4⟩
          · refine ⟨⟨x0 + n, hx⟩, by simp, by simp, ?_, h4⟩
            simpa using h3
        · rintro ⟨c, h1, h2, h3, h4⟩
          by_cases hc : c.val = x0 + n
          · right
            have : c = ⟨x0 + n, hx⟩ := Fin.ext hc
            subst this
            exact ⟨by simpa using h3, h4⟩
          · exact Or.inl ⟨c, h1, by omega, h3, h4⟩
    · rw [dif_neg (show ¬ x0 + n < Config.dispW from hx)]
      constructor
      · intro c l
        rw [ihp]
        congr 2
        apply decide_eq_decide.2
        have := c.isLt
        constructor
        · rintro ⟨h1, h2, h3⟩; exact ⟨h1, h2, by omega⟩
        · rintro ⟨h1, h2, h3⟩; exact ⟨h1, h2, by omega⟩
      · rw [ihc]
        constructor
        · rintro ⟨c, h1, h2, h⟩; exact ⟨c, h1, by omega, h⟩
        · rintro ⟨c, h1, h2, h⟩; exact ⟨c, h1, by have := c.isLt; omega, h⟩

/-- Drawing rows touches the display and the counter of free values alone. -/
theorem State.drawRows_state (x0 y0 : Nat) (base : Addr) (n : Nat) (s : State) :
    ∃ d k, (State.drawRows x0 y0 base n s).1 = { s with disp := d, draws := k } := by
  induction n with
  | zero => exact ⟨s.disp, s.draws, rfl⟩
  | succ n ih =>
    obtain ⟨d, k, hdk⟩ := ih
    simp only [State.drawRows]
    split
    · obtain ⟨m, hm⟩ := (State.drawRows x0 y0 base n s).1.memRead_state (base + BitVec.ofNat 16 n)
      simp only [hm]
      rw [hdk]
      exact ⟨_, _, rfl⟩
    · exact ⟨d, k, hdk⟩

/-- Everything drawing rows does: there are row bytes, memory's where they lie inside memory, that are XORed
into the display at the sprite's box; a collision is a sprite bit 1 over a pixel that was 1. -/
theorem State.drawRows_spec (x0 y0 : Nat) (base : Addr) (n : Nat) (s : State) : ∃ rows : Nat → Byte,
    (∀ r < n, (base + BitVec.ofNat 16 r).toNat < 4096 → rows r = s.mem.get (base + BitVec.ofNat 16 r).toNat) ∧
    (∀ c l, (State.drawRows x0 y0 base n s).1.pixel c l = (s.pixel c l ^^ spriteBit rows x0 y0 n c l)) ∧
    ((State.drawRows x0 y0 base n s).2 = true ↔
      ∃ c l, spriteBit rows x0 y0 n c l = true ∧ s.pixel c l = true) := by
  induction n with
  | zero =>
    refine ⟨fun _ => 0, fun r hr => by omega, fun c l => ?_, ?_⟩
    · have : ¬ (y0 ≤ l.val ∧ l.val < y0 + 0 ∧ x0 ≤ c.val ∧ c.val < x0 + 8) := by omega
      simp [State.drawRows, spriteBit]
    · simp [State.drawRows, spriteBit]
  | succ n ih =>
    obtain ⟨rows, hrows, hpix, hcol⟩ := ih
    obtain ⟨d, k, hdk⟩ := State.drawRows_state x0 y0 base n s
    obtain ⟨b, hb⟩ : ∃ b, b = ((State.drawRows x0 y0 base n s).1.memRead (base + BitVec.ofNat 16 n)).1 := ⟨_, rfl⟩
    let rows' : Nat → Byte := fun r => if r = n then b else rows r
    have hold : ∀ c l, l.val ≠ y0 + n → spriteBit rows' x0 y0 (n + 1) c l = spriteBit rows x0 y0 n c l := by
      intro c l hl
      by_cases hlo : y0 ≤ l.val
      · have h1 : l.val - y0 ≠ n := by omega
        have h2 : (l.val < y0 + (n + 1)) = (l.val < y0 + n) := propext (by omega)
        simp only [spriteBit, rows', if_neg h1, h2]
      · simp [spriteBit, hlo]
    have hnew : ∀ (c : Fin 64) (h : y0 + n < 32), spriteBit rows' x0 y0 (n + 1) c ⟨y0 + n, h⟩ =
        (decide (x0 ≤ c.val ∧ c.val < x0 + 8) && b.getLsbD (7 - (c.val - x0))) := by
      intro c h
      simp [spriteBit, rows']
    have hnone : ∀ (c : Fin 64) (h : y0 + n < 32), spriteBit rows x0 y0 n c ⟨y0 + n, h⟩ = false := by
      intro c h
      simp [spriteBit]
    refine ⟨rows', ?_, ?_⟩
    · intro r hr hin
      by_cases hrn : r = n
      · subst hrn
        simp only [rows', if_pos rfl]
        rw [hb, State.memRead_inside _ hin, hdk]
      · simp only [rows', if_neg hrn]
        exact hrows r (by omega) hin
    · obtain ⟨m, hm⟩ := (State.drawRows x0 y0 base n s).1.memRead_state (base + BitVec.ofNat 16 n)
      simp only [State.drawRows]
      by_cases hy : y0 + n < 32
      · rw [dif_pos (show y0 + n < Config.dispH from hy)]
        obtain ⟨hbp, hbc⟩ := Display.drawBits_spec b x0 ⟨y0 + n, hy⟩
          (State.drawRows x0 y0 base n s).1.disp 8
        simp only [hm, ← hb, State.setDraws_disp, State.setDisp_pixel]
        constructor
        · intro c l
          rw [hbp c l]
          have : Display.pixel (State.drawRows x0 y0 base n s).1.disp c l =
            (State.drawRows x0 y0 base n s).1.pixel c l := rfl
          rw [this, hpix c l]
          by_cases hl : l.val = y0 + n
          · have hl' : l = ⟨y0 + n, hy⟩ := Fin.ext hl
            subst hl'
            rw [hnone, hnew]
            simp
          · have hl' : l ≠ ⟨y0 + n, hy⟩ := fun e => hl (congrArg Fin.val e)
            rw [hold c l hl]
            simp [hl']
        · simp only [Bool.or_eq_true, hcol, hbc]
          constructor
          · rintro (⟨c, l, h1, h2⟩ | ⟨c, h1, h2, h3, h4⟩)
            · refine ⟨c, l, ?_, h2⟩
              rw [hold c l ?_, h1]
              intro e
              have := Fin.ext (b := ⟨y0 + n, hy⟩) e
              subst this
              rw [hnone] at h1
              cases h1
            · refine ⟨c, ⟨y0 + n, hy⟩, ?_, ?_⟩
              · rw [hnew]; simp [h1, h2, h3]
              · have : (State.drawRows x0 y0 base n s).1.pixel c ⟨y0 + n, hy⟩ = true := h4
                rw [hpix, hnone] at this
                simpa using this
          · rintro ⟨c, l, h1, h2⟩
            by_cases hl : l.val = y0 + n
            · have hl' : l = ⟨y0 + n, hy⟩ := Fin.ext hl
              subst hl'
              right
              rw [hnew] at h1
              simp only [Bool.and_eq_true, decide_eq_true_eq] at h1
              refine ⟨c, h1.1.1, h1.1.2, h1.2, ?_⟩
              show (State.drawRows x0 y0 base n s).1.pixel c ⟨y0 + n, hy⟩ = true
              rw [hpix, hnone, h2]; rfl
            · left
              exact ⟨c, l, by rw [← hold c l hl]; exact h1, h2⟩
      · rw [dif_neg (show ¬ y0 + n < Config.dispH from hy)]
        have hl : ∀ l : Fin 32, l.val ≠ y0 + n := fun l => by have := l.isLt; omega
        constructor
        · intro c l; rw [hpix, hold c l (hl l)]
        · rw [hcol]
          simp only [hold _ _ (hl _)]

/-- Drawing rows that all lie inside memory draws no free value. -/
theorem State.drawRows_draws_inside (x0 y0 : Nat) (base : Addr) (s : State) :
    ∀ n, (∀ r < n, (base + BitVec.ofNat 16 r).toNat < 4096) →
      (State.drawRows x0 y0 base n s).1.draws = s.draws := by
  intro n
  induction n with
  | zero => intro _; rfl
  | succ n ih =>
    intro h
    simp only [State.drawRows]
    split
    · rw [State.memRead_inside _ (h n (by omega)), State.setDisp_draws]
      exact ih (fun r hr => h r (by omega))
    · exact ih (fun r hr => h r (by omega))

/-! ### The key search (44 R184) -/

theorem State.leastUpFrom_cases (s : State) : ∀ n ≤ 16,
    (∃ k : Nibble, s.leastUpFrom n = some k ∧ 16 - n ≤ k.toNat ∧ s.keyIsDown k = false ∧
      ∀ j : Nibble, 16 - n ≤ j.toNat → j < k → s.keyIsDown j = true) ∨
    (s.leastUpFrom n = none ∧ ∀ j : Nibble, 16 - n ≤ j.toNat → s.keyIsDown j = true) := by
  intro n
  induction n with
  | zero =>
    intro _
    right
    exact ⟨rfl, fun j hj => by have := j.isLt; omega⟩
  | succ n ih =>
    intro hn
    have hto : (BitVec.ofNat 4 (15 - n)).toNat = 15 - n := by
      simp; omega
    simp only [State.leastUpFrom]
    by_cases hk : s.keyIsDown (BitVec.ofNat 4 (15 - n)) = true
    · rw [if_pos hk]
      have down : ∀ j : Nibble, 16 - (n + 1) ≤ j.toNat → ¬ 16 - n ≤ j.toNat → s.keyIsDown j = true := by
        intro j h1 h2
        have : j = BitVec.ofNat 4 (15 - n) := BitVec.eq_of_toNat_eq (by omega)
        rw [this]; exact hk
      rcases ih (by omega) with ⟨k, e, h1, h2, h3⟩ | ⟨e, h⟩
      · refine Or.inl ⟨k, e, by omega, h2, fun j hj hjk => ?_⟩
        by_cases hj' : 16 - n ≤ j.toNat
        · exact h3 j hj' hjk
        · exact down j hj hj'
      · refine Or.inr ⟨e, fun j hj => ?_⟩
        by_cases hj' : 16 - n ≤ j.toNat
        · exact h j hj'
        · exact down j hj hj'
    · rw [if_neg hk]
      refine Or.inl ⟨_, rfl, by omega, by simpa using hk, fun j hj hjk => ?_⟩
      have := BitVec.lt_def.1 hjk
      omega

/-- The search finds the least key that is up, or finds that every key is down (44 R184). -/
theorem State.leastUpKey_cases (s : State) :
    (∃ k, s.leastUpKey = some k ∧ s.keyIsDown k = false ∧ ∀ j, j < k → s.keyIsDown j = true) ∨
    (s.leastUpKey = none ∧ ∀ j, s.keyIsDown j = true) := by
  rcases s.leastUpFrom_cases 16 (Nat.le_refl _) with ⟨k, e, -, h2, h3⟩ | ⟨e, h⟩
  · exact Or.inl ⟨k, e, h2, fun j hj => h3 j (by omega) hj⟩
  · exact Or.inr ⟨e, fun j => h j (by omega)⟩

/-! ### The flagged write (41 R152) -/

/-- Everything the flagged write does: VF holds the flag, the destination the result unless it is VF. -/
@[simp] theorem State.writeFlagged_reg (s : State) (x : Nibble) (v : Byte) (c : Bool) (r : Nibble) :
    (s.writeFlagged x v c).reg r = if r = vf then flagByte c else if r = x then v else s.reg r := by
  simp [State.writeFlagged]

theorem State.writeFlagged_state (s : State) (x : Nibble) (v : Byte) (c : Bool) :
    ∃ x', s.writeFlagged x v c = { s with x := x' } := ⟨_, rfl⟩

end Sys2Proof.Machine
end

