-- ==== Sys2Proof/Laws/HostOps.lean ====
section
/-! SUPPORT. One lemma per host operation's helper: the raw write's bytes, the key map, the row-major pixel. -/

namespace Sys2Proof.Machine

/-- Everything the raw write's loop does, when it ends inside memory (45 R192). -/
theorem Memory.get_putAll (bs : List Byte) : ∀ (m : Memory) (a b : Nat), a + bs.length ≤ 4096 →
    Memory.get (m.putAll a bs) b = if h : a ≤ b ∧ b - a < bs.length then bs[b - a]'h.2 else Memory.get m b := by
  induction bs with
  | nil => intro m a b _; simp [Memory.putAll]
  | cons v bs ih =>
    intro m a b hlen
    rw [List.length_cons] at hlen
    simp only [Memory.putAll]
    rw [ih (m.put a v) (a + 1) b (by omega), Memory.get_put]
    by_cases hb : b = a
    · subst hb
      rw [dif_neg (by omega), if_pos ⟨rfl, by omega⟩]
      simp
    · rw [if_neg (fun e : b = a ∧ a < 4096 => hb e.1)]
      by_cases h : a + 1 ≤ b ∧ b - (a + 1) < bs.length
      · rw [dif_pos h, dif_pos (show a ≤ b ∧ b - a < (v :: bs).length by simp only [List.length_cons]; omega)]
        have e : b - a = (b - (a + 1)) + 1 := by omega
        simp only [e, List.getElem_cons_succ]
      · rw [dif_neg h, dif_neg (fun h' => h (by simp only [List.length_cons] at h'; omega))]

theorem Memory.putAll_wf (bs : List Byte) : ∀ {m : Memory} (_ : m.wf) (a : Nat), (m.putAll a bs).wf := by
  induction bs with
  | nil => intro m h _; exact h
  | cons v bs ih => intro m h a; exact ih (Memory.put_wf h a v) (a + 1)

/-- Every logical key answers to the code the map gives it (10_state R35). -/
theorem logicalKey_of_keymap : ∀ p ∈ Config.keymap, logicalKey p.2 = some p.1 := by
  intro p hp
  have h : (Config.keymap.all fun q => logicalKey q.2 == some q.1) = true := by rfl
  simpa using List.all_eq_true.1 h p hp

/-- A code that answers is in the map (10_state R35). -/
theorem keymap_of_logicalKey {code : Byte} {k : Nibble} (h : logicalKey code = some k) : (k, code) ∈ Config.keymap := by
  unfold logicalKey at h
  cases hf : Config.keymap.find? (fun p => p.2 == code) with
  | none => rw [hf] at h; cases h
  | some p =>
    rw [hf] at h
    have h1 := List.mem_of_find?_eq_some hf
    have h2 := List.find?_some hf
    simp only [Option.map_some, Option.some.injEq] at h
    simp only [beq_iff_eq] at h2
    rw [← h, ← h2]
    exact h1

/-- One count of a timer: truncated subtraction (45 R193). -/
theorem countDown_toNat (t : Byte) : (countDown t).toNat = t.toNat - 1 := by
  have ht := t.isLt
  unfold countDown
  split
  · rw [BitVec.toNat_sub, show (1 : Byte).toNat = 1 from rfl]
    omega
  · omega

/-- The row-major pixel inside the grid (45 R196). -/
theorem State.linearPixel_eq (s : State) (c : Fin 64) (l : Fin 32) :
    s.linearPixel (l.val * 64 + c.val) = s.pixel c l := by
  have hc := c.isLt
  have hl := l.isLt
  have h1 : (l.val * 64 + c.val) / 64 = l.val := by omega
  have h2 : (l.val * 64 + c.val) % 64 = c.val := by omega
  unfold State.linearPixel
  rw [dif_pos (by omega)]
  congr 1
  · exact Fin.ext h2
  · exact Fin.ext h1

end Sys2Proof.Machine
end

