-- ==== Sys2Proof/Laws/PerInstr.lean ====
section
/-! SUPPORT. The family `EncodesItsRow`: every instruction's word has the fixed bits its row of the opcode map gives (30_encoding R96). One lemma per constructor. -/

namespace Sys2Proof.Laws.EncodesItsRow

open Sys2Proof

/-- The word of `i` fits the row of the opcode map that carries `i`'s mnemonic, where there is one; an
undefined word's mnemonic is in no row. -/
def Statement (i : Instr) : Prop := ∀ row ∈ opcodeMap, row.mnemonic = i.mnemonic → row.fits (encode i) = true

/-- The statement for an instruction whose mnemonic stands in the one given row. -/
theorem of_row {i : Instr} (value mask : OpWord)
    (hrow : (opcodeMap.filter (fun r => r.mnemonic == i.mnemonic)).all
      (fun r => r.value == value && r.mask == mask) = true)
    (hword : encode i &&& mask = value) : Statement i := by
  intro row hr hm
  have h := List.all_eq_true.1 hrow row (List.mem_filter.2 ⟨hr, by simpa using hm⟩)
  simp only [Bool.and_eq_true, beq_iff_eq] at h
  simp only [OpcodeRow.fits, h.1, h.2, hword, beq_self_eq_true]

theorem fits_formatNNN (f : Nibble) (nnn : Imm12) : (f ++ nnn : OpWord) &&& 0xF000 = f ++ 0x000#12 := by
  rw [and_maskF000, opF_formatNNN]

theorem fits_formatXNN (f x : Nibble) (nn : Byte) : (f ++ x ++ nn : OpWord) &&& 0xF000 = f ++ 0x000#12 := by
  rw [and_maskF000, opF_formatXNN]

theorem fits_formatXYN (f x y n : Nibble) : (f ++ x ++ y ++ n : OpWord) &&& 0xF000 = f ++ 0x000#12 := by
  rw [and_maskF000, opF_formatXYN]

theorem fits_family8 (f x y n : Nibble) :
    (f ++ x ++ y ++ n : OpWord) &&& 0xF00F = f ++ 0x0#4 ++ 0x0#4 ++ n := by
  rw [and_maskF00F, opF_formatXYN, opN_formatXYN]

theorem fits_formatXKK (f x : Nibble) (kk : Byte) :
    (f ++ x ++ kk : OpWord) &&& 0xF0FF = f ++ 0x0#4 ++ kk := by
  rw [and_maskF0FF, opF_formatXNN, opNN_formatXNN]

theorem cls : Statement (.cls) :=
  of_row 0x00E0 0xFFFF rfl (by decide)

theorem ret : Statement (.ret) :=
  of_row 0x00EE 0xFFFF rfl (by decide)

theorem jp (nnn : Imm12) : Statement (.jp nnn) :=
  of_row 0x1000 0xF000 rfl (fits_formatNNN _ _)

theorem call (nnn : Imm12) : Statement (.call nnn) :=
  of_row 0x2000 0xF000 rfl (fits_formatNNN _ _)

theorem seImm (x : Nibble) (nn : Byte) : Statement (.seImm x nn) :=
  of_row 0x3000 0xF000 rfl (fits_formatXNN _ _ _)

theorem sneImm (x : Nibble) (nn : Byte) : Statement (.sneImm x nn) :=
  of_row 0x4000 0xF000 rfl (fits_formatXNN _ _ _)

theorem seReg (x : Nibble) (y : Nibble) (n : Nibble) : Statement (.seReg x y n) :=
  of_row 0x5000 0xF000 rfl (fits_formatXYN _ _ _ _)

theorem ldImm (x : Nibble) (nn : Byte) : Statement (.ldImm x nn) :=
  of_row 0x6000 0xF000 rfl (fits_formatXNN _ _ _)

theorem addImm (x : Nibble) (nn : Byte) : Statement (.addImm x nn) :=
  of_row 0x7000 0xF000 rfl (fits_formatXNN _ _ _)

theorem ldReg (x : Nibble) (y : Nibble) : Statement (.ldReg x y) :=
  of_row 0x8000 0xF00F rfl (fits_family8 _ _ _ _)

theorem orReg (x : Nibble) (y : Nibble) : Statement (.orReg x y) :=
  of_row 0x8001 0xF00F rfl (fits_family8 _ _ _ _)

theorem andReg (x : Nibble) (y : Nibble) : Statement (.andReg x y) :=
  of_row 0x8002 0xF00F rfl (fits_family8 _ _ _ _)

theorem xorReg (x : Nibble) (y : Nibble) : Statement (.xorReg x y) :=
  of_row 0x8003 0xF00F rfl (fits_family8 _ _ _ _)

theorem addReg (x : Nibble) (y : Nibble) : Statement (.addReg x y) :=
  of_row 0x8004 0xF00F rfl (fits_family8 _ _ _ _)

theorem subReg (x : Nibble) (y : Nibble) : Statement (.subReg x y) :=
  of_row 0x8005 0xF00F rfl (fits_family8 _ _ _ _)

theorem shr (x : Nibble) (y : Nibble) : Statement (.shr x y) :=
  of_row 0x8006 0xF00F rfl (fits_family8 _ _ _ _)

theorem subn (x : Nibble) (y : Nibble) : Statement (.subn x y) :=
  of_row 0x8007 0xF00F rfl (fits_family8 _ _ _ _)

theorem shl (x : Nibble) (y : Nibble) : Statement (.shl x y) :=
  of_row 0x800E 0xF00F rfl (fits_family8 _ _ _ _)

theorem sneReg (x : Nibble) (y : Nibble) (n : Nibble) : Statement (.sneReg x y n) :=
  of_row 0x9000 0xF000 rfl (fits_formatXYN _ _ _ _)

theorem ldI (nnn : Imm12) : Statement (.ldI nnn) :=
  of_row 0xA000 0xF000 rfl (fits_formatNNN _ _)

theorem jpV0 (nnn : Imm12) : Statement (.jpV0 nnn) :=
  of_row 0xB000 0xF000 rfl (fits_formatNNN _ _)

theorem rnd (x : Nibble) (nn : Byte) : Statement (.rnd x nn) :=
  of_row 0xC000 0xF000 rfl (fits_formatXNN _ _ _)

theorem drw (x : Nibble) (y : Nibble) (n : Nibble) : Statement (.drw x y n) :=
  of_row 0xD000 0xF000 rfl (fits_formatXYN _ _ _ _)

theorem skp (x : Nibble) : Statement (.skp x) :=
  of_row 0xE09E 0xF0FF rfl (fits_formatXKK _ _ _)

theorem sknp (x : Nibble) : Statement (.sknp x) :=
  of_row 0xE0A1 0xF0FF rfl (fits_formatXKK _ _ _)

theorem ldVxDt (x : Nibble) : Statement (.ldVxDt x) :=
  of_row 0xF007 0xF0FF rfl (fits_formatXKK _ _ _)

theorem ldVxK (x : Nibble) : Statement (.ldVxK x) :=
  of_row 0xF00A 0xF0FF rfl (fits_formatXKK _ _ _)

theorem ldDtVx (x : Nibble) : Statement (.ldDtVx x) :=
  of_row 0xF015 0xF0FF rfl (fits_formatXKK _ _ _)

theorem ldStVx (x : Nibble) : Statement (.ldStVx x) :=
  of_row 0xF018 0xF0FF rfl (fits_formatXKK _ _ _)

theorem addI (x : Nibble) : Statement (.addI x) :=
  of_row 0xF01E 0xF0FF rfl (fits_formatXKK _ _ _)

theorem ldF (x : Nibble) : Statement (.ldF x) :=
  of_row 0xF029 0xF0FF rfl (fits_formatXKK _ _ _)

theorem ldB (x : Nibble) : Statement (.ldB x) :=
  of_row 0xF033 0xF0FF rfl (fits_formatXKK _ _ _)

theorem storeRegs (x : Nibble) : Statement (.storeRegs x) :=
  of_row 0xF055 0xF0FF rfl (fits_formatXKK _ _ _)

theorem loadRegs (x : Nibble) : Statement (.loadRegs x) :=
  of_row 0xF065 0xF0FF rfl (fits_formatXKK _ _ _)

theorem undef (w : OpWord) : Statement (.undef w) := by
  intro row hr hm
  have : (opcodeMap.all (fun r => r.mnemonic != "UNDEF")) = true := by decide
  have h := List.all_eq_true.1 this row hr
  rw [hm] at h
  exact absurd h (by simp [Instr.mnemonic])

end Sys2Proof.Laws.EncodesItsRow
end

