-- ==== Sys2Proof/Tests/Slice0.lean ====
section
/-! SUPPORT. The model's own tests: the WellFormed smoke, one decoded word per constructor, one-step tests whose expected values are the spec's (95_test_vectors, named per test), and for every obligation with hypotheses a witness that they can be met. -/

namespace Sys2Proof.Tests

open Sys2Proof Sys2Proof.Machine

/-! ## Helpers -/

/-- The state after one step that has the word `w` at pc. -/
def stepOn (s : State) (w : Nat) : Option State :=
  match step (s.withFetchWord 16 w) with
  | .next t => some t
  | .fault _ => none
  | .refused _ => none

/-- The reset state with some registers set. -/
def regs (l : List (Nibble × Byte)) : State := l.foldl (fun s p => s.setReg p.1 p.2) State.reset

/-- A state with bytes stored from an address on. -/
def bytesAt (a : Nat) (l : List Byte) (s : State) : State := s.setMem (s.mem.putAll a l)

/-- The columns of a display row that are lit. -/
def litColumns (s : State) (y : Fin 32) : List Nat := ((List.finRange 64).filter (fun c => s.pixel c y)).map Fin.val

/-! ## WellFormed: one ill-formed term for each of its checks (30_encoding R98, R97) -/

theorem test_wf_refuses_cls_word : WellFormed (.undef 0x00E0) = false := by decide
theorem test_wf_refuses_ret_word : WellFormed (.undef 0x00EE) = false := by decide
theorem test_wf_refuses_family8 : WellFormed (.undef 0x812E) = false ∧ WellFormed (.undef 0x8120) = false := by decide
theorem test_wf_refuses_familyE : WellFormed (.undef 0xE19E) = false ∧ WellFormed (.undef 0xE1A1) = false := by decide
theorem test_wf_refuses_familyF : WellFormed (.undef 0xF165) = false ∧ WellFormed (.undef 0xF107) = false := by decide
theorem test_wf_refuses_whole_families : WellFormed (.undef 0x5127) = false ∧ WellFormed (.undef 0x912F) = false ∧
    WellFormed (.undef 0x1234) = false ∧ WellFormed (.undef 0xD000) = false := by decide
theorem test_wf_accepts : WellFormed (.undef 0x00E1) = true ∧ WellFormed (.undef 0x812F) = true ∧
    WellFormed (.undef 0xE1A0) = true ∧ WellFormed (.undef 0xF11F) = true ∧ WellFormed (.drw 1 2 0xF) = true := by decide

/-! ## Decoding: a word per constructor, its bits written out from the "Encoding:" of its rule (R120 to R186) -/

theorem test_decode_cls : decode 0b0000000011100000 = .cls := by decide
theorem test_decode_ret : decode 0b0000000011101110 = .ret := by decide
theorem test_decode_jp : decode 0b0001101010111100 = .jp 0xABC := by decide
theorem test_decode_call : decode 0b0010010100000001 = .call 0x501 := by decide
theorem test_decode_seImm : decode 0b0011101000000101 = .seImm 0xA 0x05 := by decide
theorem test_decode_sneImm : decode 0b0100101000000101 = .sneImm 0xA 0x05 := by decide
theorem test_decode_seReg : decode 0b0101000100100111 = .seReg 1 2 7 := by decide
theorem test_decode_ldImm : decode 0b0110000000000101 = .ldImm 0 0x05 := by decide
theorem test_decode_addImm : decode 0b0111000000000011 = .addImm 0 0x03 := by decide
theorem test_decode_ldReg : decode 0b1000000100100000 = .ldReg 1 2 := by decide
theorem test_decode_orReg : decode 0b1000000100100001 = .orReg 1 2 := by decide
theorem test_decode_andReg : decode 0b1000000100100010 = .andReg 1 2 := by decide
theorem test_decode_xorReg : decode 0b1000000100100011 = .xorReg 1 2 := by decide
theorem test_decode_addReg : decode 0b1000000100100100 = .addReg 1 2 := by decide
theorem test_decode_subReg : decode 0b1000000100100101 = .subReg 1 2 := by decide
theorem test_decode_shr : decode 0b1000000100100110 = .shr 1 2 := by decide
theorem test_decode_subn : decode 0b1000000100100111 = .subn 1 2 := by decide
theorem test_decode_shl : decode 0b1000000100101110 = .shl 1 2 := by decide
theorem test_decode_sneReg : decode 0b1001000100101111 = .sneReg 1 2 0xF := by decide
theorem test_decode_ldI : decode 0b1010001000101010 = .ldI 0x22A := by decide
theorem test_decode_jpV0 : decode 0b1011001100000000 = .jpV0 0x300 := by decide
theorem test_decode_rnd : decode 0b1100000100001111 = .rnd 1 0x0F := by decide
theorem test_decode_drw : decode 0b1101000100100101 = .drw 1 2 5 := by decide
theorem test_decode_skp : decode 0b1110000110011110 = .skp 1 := by decide
theorem test_decode_sknp : decode 0b1110000110100001 = .sknp 1 := by decide
theorem test_decode_ldVxDt : decode 0b1111000100000111 = .ldVxDt 1 := by decide
theorem test_decode_ldVxK : decode 0b1111010100001010 = .ldVxK 5 := by decide
theorem test_decode_ldDtVx : decode 0b1111000100010101 = .ldDtVx 1 := by decide
theorem test_decode_ldStVx : decode 0b1111001000011000 = .ldStVx 2 := by decide
theorem test_decode_addI : decode 0b1111001100011110 = .addI 3 := by decide
theorem test_decode_ldF : decode 0b1111000100101001 = .ldF 1 := by decide
theorem test_decode_ldB : decode 0b1111001000110011 = .ldB 2 := by decide
theorem test_decode_storeRegs : decode 0b1111001001010101 = .storeRegs 2 := by decide
theorem test_decode_loadRegs : decode 0b1111001001100101 = .loadRegs 2 := by decide
theorem test_decode_undef : decode 0b1000000100101000 = .undef 0x8128 := by decide

/-- 20_memory R64: the first byte is the more significant one. -/
theorem test_decode_bytes_order : decodeBytes [0xA2, 0x2A, 0x60] = .ok (.ldI 0x22A, [0x60]) := by rfl
theorem test_decode_bytes_truncated : decodeBytes [0xA2] = .error .truncated := by rfl

/-! ## Control flow (T1, T2, T11) -/

theorem test_jp : (stepOn State.reset 0x1ABC).map (·.pc) = some 0xABC := by decide
theorem test_call : (stepOn State.reset 0x2300).map
    (fun t => (t.pc, t.sp, t.mem.get 0x1FF, t.mem.get 0x1FE)) = some (0x300, 0x1FD, 0x02, 0x02) := by decide
/-- T1: the second byte of a push at sp = 0 is dropped. -/
theorem test_call_at_bottom : (stepOn (State.reset.setSp 0) 0x2300).map
    (fun t => (t.pc, t.sp, t.mem.get 0, t.mem.get 0xFFFF)) = some (0x300, 0xFFFE, 0x02, 0) := by decide
/-- T1: a return without a call takes its own two bytes, low byte first. -/
theorem test_ret_without_call : (stepOn State.reset 0x00EE).map (fun t => (t.pc, t.sp)) = some (0xEE00, 0x201) := by decide
theorem test_jpV0_exact : (stepOn (regs [(0, 0xFF)]) 0xBFFF).map (·.pc) = some 0x10FE := by decide
theorem test_seImm_skips : (stepOn (regs [(1, 0x42)]) 0x3142).map (·.pc) = some 0x204 := by decide
theorem test_seImm_runs_on : (stepOn (regs [(1, 0x41)]) 0x3142).map (·.pc) = some 0x202 := by decide
theorem test_sneImm_skips : (stepOn (regs [(1, 0x41)]) 0x4142).map (·.pc) = some 0x204 := by decide
theorem test_sneImm_runs_on : (stepOn (regs [(1, 0x42)]) 0x4142).map (·.pc) = some 0x202 := by decide
theorem test_seReg_skips : (stepOn (regs [(1, 7), (2, 7)]) 0x5127).map (·.pc) = some 0x204 := by decide
theorem test_seReg_runs_on : (stepOn (regs [(1, 7), (2, 8)]) 0x5120).map (·.pc) = some 0x202 := by decide
theorem test_sneReg_skips : (stepOn (regs [(1, 7), (2, 8)]) 0x912F).map (·.pc) = some 0x204 := by decide
theorem test_sneReg_runs_on : (stepOn (regs [(1, 7), (2, 7)]) 0x9120).map (·.pc) = some 0x202 := by decide
theorem test_undef : (stepOn (regs [(1, 0x11), (0xF, 0x33)]) 0x812A).map
    (fun t => (t.pc, t.reg 1, t.reg 0xF)) = some (0x202, 0x11, 0x33) := by decide

/-! ## Loads, arithmetic, logic, shifts (T3, T4, S1) -/

theorem test_ldImm : (stepOn State.reset 0x6A0A).map (·.reg 0xA) = some 0x0A := by decide
theorem test_addImm_wraps : (stepOn (regs [(0, 0x80), (0xF, 0x55)]) 0x7080).map
    (fun t => (t.reg 0, t.reg 0xF)) = some (0x00, 0x55) := by decide
theorem test_ldReg : (stepOn (regs [(1, 1), (2, 0x77), (0xF, 0x55)]) 0x8120).map
    (fun t => (t.reg 1, t.reg 2, t.reg 0xF)) = some (0x77, 0x77, 0x55) := by decide
theorem test_orReg : (stepOn (regs [(1, 0xF0), (2, 0x0F), (0xF, 0x55)]) 0x8121).map
    (fun t => (t.reg 1, t.reg 2, t.reg 0xF)) = some (0xFF, 0x0F, 0) := by decide
theorem test_orReg_into_flag : (stepOn (regs [(0xF, 0xAA), (1, 0x55)]) 0x8F11).map (·.reg 0xF) = some 0 := by decide
theorem test_andReg : (stepOn (regs [(1, 0xF0), (2, 0x3C), (0xF, 0x55)]) 0x8122).map
    (fun t => (t.reg 1, t.reg 2, t.reg 0xF)) = some (0x30, 0x3C, 0) := by decide
theorem test_xorReg : (stepOn (regs [(1, 0xFF), (2, 0x0F), (0xF, 0x55)]) 0x8123).map
    (fun t => (t.reg 1, t.reg 2, t.reg 0xF)) = some (0xF0, 0x0F, 0) := by decide
theorem test_addReg_carry : (stepOn (regs [(1, 0x80), (2, 0x80)]) 0x8124).map
    (fun t => (t.reg 1, t.reg 0xF)) = some (0, 1) := by decide
theorem test_addReg_flag_operand : (stepOn (regs [(1, 0xFF), (0xF, 0x01)]) 0x81F4).map
    (fun t => (t.reg 1, t.reg 0xF)) = some (0, 1) := by decide
theorem test_subReg_borrow : (stepOn (regs [(1, 3), (2, 5), (0xF, 0x55)]) 0x8125).map
    (fun t => (t.reg 1, t.reg 0xF)) = some (0xFE, 0) := by decide
theorem test_subReg_equal : (stepOn (regs [(1, 7), (2, 7)]) 0x8125).map
    (fun t => (t.reg 1, t.reg 0xF)) = some (0, 1) := by decide
theorem test_shr_from_vy : (stepOn (regs [(1, 0xAA), (2, 0x05)]) 0x8126).map
    (fun t => (t.reg 1, t.reg 2, t.reg 0xF)) = some (2, 5, 1) := by decide
theorem test_subn : (stepOn (regs [(1, 3), (2, 5)]) 0x8127).map
    (fun t => (t.reg 1, t.reg 0xF)) = some (2, 1) := by decide
theorem test_shl_from_vy : (stepOn (regs [(1, 0x01), (2, 0x81)]) 0x812E).map
    (fun t => (t.reg 1, t.reg 2, t.reg 0xF)) = some (2, 0x81, 1) := by decide
theorem test_shl_all_flag : (stepOn (regs [(0xF, 0x81)]) 0x8FFE).map (·.reg 0xF) = some 1 := by decide

/-! ## The address register and memory (T5) -/

theorem test_ldI : (stepOn State.reset 0xAFFF).map (·.iReg) = some 0xFFF := by decide
theorem test_addI_past_4k : (stepOn ((regs [(1, 1)]).setI 0xFFF) 0xF11E).map
    (fun t => (t.iReg, t.reg 0xF)) = some (0x1000, 0) := by decide
theorem test_addI_wraps : (stepOn ((regs [(1, 2)]).setI 0xFFFF) 0xF11E).map (·.iReg) = some 1 := by decide
theorem test_ldF : (stepOn (regs [(1, 0x0F)]) 0xF129).map (·.iReg) = some 0x4B := by decide
theorem test_ldF_unmasked : (stepOn (regs [(1, 0xFF)]) 0xF129).map (·.iReg) = some 0x4FB := by decide
theorem test_ldB : (stepOn ((regs [(2, 234)]).setI 0x300) 0xF233).map
    (fun t => (t.mem.get 0x300, t.mem.get 0x301, t.mem.get 0x302, t.iReg)) = some (2, 3, 4, 0x300) := by decide
/-- T5: the ones digit is dropped, byte 0 keeps the font's 0xF0. -/
theorem test_ldB_at_top : (stepOn ((regs [(2, 234)]).setI 0xFFE) 0xF233).map
    (fun t => (t.mem.get 0xFFE, t.mem.get 0xFFF, t.mem.get 0)) = some (2, 3, 0xF0) := by decide
theorem test_storeRegs : (stepOn ((regs [(0, 0x11), (1, 0x22), (2, 0x33), (3, 0x44)]).setI 0x400) 0xF255).map
    (fun t => (t.mem.get 0x400, t.mem.get 0x402, t.mem.get 0x403, t.iReg)) = some (0x11, 0x33, 0, 0x403) := by decide
theorem test_storeRegs_at_top : (stepOn ((regs [(0, 0x10), (1, 0x11), (2, 0x12)]).setI 0xFFE) 0xF355).map
    (fun t => (t.mem.get 0xFFE, t.mem.get 0xFFF, t.mem.get 0, t.iReg)) = some (0x10, 0x11, 0xF0, 0x1002) := by decide
theorem test_loadRegs_font : (stepOn State.reset 0xFF65).map (fun t => (t.x.toList, t.iReg)) =
    some ([0xF0, 0x90, 0x90, 0x90, 0xF0, 0x20, 0x60, 0x20, 0x20, 0x70, 0xF0, 0x10, 0xF0, 0x80, 0xF0, 0xF0], 0x10) := by
  decide
/-- T5: two bytes from memory, two independent free values. -/
theorem test_loadRegs_at_top : (stepOn ((bytesAt 0xFFE [0xAB, 0xCD] State.reset).setI 0xFFE) 0xF365).map
    (fun t => (t.reg 0, t.reg 1, t.reg 2, t.reg 3)) =
      some (0xAB, 0xCD, Config.oobRead 0, Config.oobRead 1) := by rfl

/-! ## Display (T6, S4) -/

theorem test_cls_keeps_flag : (stepOn ((regs [(0xF, 1)]).setDisp
      (Display.setPixel State.reset.disp 3 4 true)) 0x00E0).map
    (fun t => (t.pixel 3 4, t.reg 0xF)) = some (false, 1) := by decide +kernel
/-- T6: digit 0 at (62, 30), clipped at the right and at the bottom. -/
theorem test_drw_clips : (stepOn (regs [(1, 62), (2, 30)]) 0xD125).map
    (fun t => (litColumns t 30, litColumns t 31, litColumns t 0, t.reg 0xF)) =
      some ([62, 63], [62], [], 0) := by decide +kernel
/-- T6: both coordinates from the old VF, and the pixel already lit there collides. -/
theorem test_drw_from_flag : (stepOn ((bytesAt 0x300 [0x80] ((regs [(0xF, 3)]).setDisp
      (Display.setPixel State.reset.disp 3 3 true))).setI 0x300) 0xDFF1).map
    (fun t => (t.pixel 3 3, t.reg 0xF)) = some (false, 1) := by decide +kernel

/-! ## Random, keys, timers (T7 to T10) -/

theorem test_rnd_masks : (stepOn State.reset 0xC10F).map (fun t => (t.reg 1, t.draws)) =
    some (Config.randByte 0 &&& 0x0F, 1) := by rfl
theorem test_skp_low_nibble : (stepOn ((regs [(1, 0x17)]).setKey 7 true) 0xE19E).map (·.pc) = some 0x204 := by decide
theorem test_skp_up : (stepOn (regs [(1, 0x07)]) 0xE19E).map (·.pc) = some 0x202 := by decide
theorem test_sknp_low_nibble : (stepOn ((regs [(1, 0x17)]).setKey 7 true) 0xE1A1).map (·.pc) = some 0x202 := by decide
theorem test_sknp_up : (stepOn (regs [(1, 0x07)]) 0xE1A1).map (·.pc) = some 0x204 := by decide
/-- T9: 'x' (key 0) held, '1' (key 1) pressed and released. -/
theorem test_ldVxK_completes :
    (stepOn (hostKeyUp 0x31 (hostKeyDown 0x31 (hostKeyDown 0x78 (regs [(5, 0xAA)])))) 0xF50A).map
      (fun t => (t.pc, t.reg 5, t.ka)) = some (0x202, 1, false) := by decide
/-- S8: a press alone does not complete it. -/
theorem test_ldVxK_waits : (stepOn (hostKeyDown 0x61 (regs [(5, 0xAA)])) 0xF50A).map
    (fun t => (t.pc, t.reg 5, t.ka)) = some (0x200, 0xAA, false) := by decide
theorem test_ldVxDt : (stepOn (State.reset.setDt 0x2A) 0xF107).map
    (fun t => (t.reg 1, t.dt)) = some (0x2A, 0x2A) := by decide
theorem test_ldDtVx : (stepOn (regs [(1, 0x3C)]) 0xF115).map (fun t => (t.dt, t.st)) = some (0x3C, 0) := by decide
theorem test_ldStVx : (stepOn (regs [(2, 5)]) 0xF218).map (fun t => (t.st, t.dt)) = some (5, 0) := by decide

/-! ## The host's operations (T10, T12, T13) and reset (T14) -/

theorem test_tick : (hostTick ((State.reset.setDt 0x3C).setSt 0)).dt = 0x3B ∧
    (hostTick ((State.reset.setDt 0x3C).setSt 0)).st = 0 := by decide
theorem test_write_at_top : (hostWrite 0xFFE [1, 2] State.reset).2 = .ok ∧
    (hostWrite 0xFFE [1, 2] State.reset).1.mem = [(0xFFE, 1), (0xFFF, 2)] ∧
    (hostWrite 0xFFE [1, 2, 3] State.reset).2 = .rejected ∧
    (hostWrite 0xFFE [1, 2, 3] State.reset).1.mem = [] := by decide
theorem test_write_empty : (hostWrite 0x1000 [] State.reset).2 = .ok ∧ (hostWrite 0x1001 [] State.reset).2 = .rejected ∧
    (hostWrite 0xFFFF [1, 2] State.reset).2 = .rejected := by decide
theorem test_unmapped_key : hostKeyUp 0x70 State.reset = State.reset := by decide
theorem test_read_display_runs_on : hostReadDisplay 62 0 4 (State.reset.setDisp
    (Display.setPixel State.reset.disp 0 1 true)) = [false, false, true, false] := by decide +kernel
theorem test_read_display_clamps : (hostReadDisplay 63 31 10 State.reset).length = 1 ∧
    readCount 1 1 5000 = 1983 ∧ readCount 0 0 5000 = 2048 := by decide +kernel
theorem test_set_start : (hostSetStart 0xFFF State.reset).2 = .ok ∧ (hostSetStart 0xFFF State.reset).1.pc = 0xFFF ∧
    (hostSetStart 0xFFF State.reset).1.sp = 0x1FF ∧ (hostSetStart 0x1000 State.reset).2 = .rejected := by decide
theorem test_reset : State.reset.pc = 0x200 ∧ State.reset.sp = 0x1FF ∧ State.reset.mem.get 0x4F = 0x80 ∧
    State.reset.mem.get 0x50 = 0 ∧ State.reset.mem.get 0x4B = 0xF0 ∧ (State.resetAt 0x600 (by decide)).sp = 0x5FF := by decide
/-- The word put where the fetch looks is what the host's probe decodes. -/
theorem test_fetch_word : (State.reset.withFetchWord 16 0xD125).fetch.1 = 0xD125 ∧
    decodeTableWord 16 0xD125 = some (.drw 1 2 5) := by decide

/-! ## Witnesses: for every obligation with hypotheses, a state and operands that meet all of them together, and for
one with several clauses a boundary value of each -/

/-- A state with the word `w` at pc. -/
def wordAt (w : Nat) (s : State) : State := s.withFetchWord 16 w

theorem witness_DecodeOfEncodeIsTheInstruction :
    WellFormed (.undef 0x8128) = true ∧ WellFormed (.seReg 1 2 7) = true := by decide

theorem witness_StepRunsTheDecodedInstruction :
    WellFormed (.call 0x300) = true ∧ PcInRange (wordAt 0x2300 (State.reset.setPc 0xFFE)) ∧
      WordAtPc (wordAt 0x2300 (State.reset.setPc 0xFFE)) (encode (.call 0x300)) := by decide

theorem witness_FetchOutsideMemoryReadsFreeBytes :
    (State.reset.setPc 0x0FFF).pc = 0x0FFF ∧
    (0x1000 ≤ (State.reset.setPc 0x1000).pc.toNat ∧ (State.reset.setPc 0x1000).pc ≠ 0xFFFF) ∧
    (0x1000 ≤ (State.reset.setPc 0xFFFE).pc.toNat ∧ (State.reset.setPc 0xFFFE).pc ≠ 0xFFFF) ∧
    (State.reset.setPc 0xFFFF).pc = 0xFFFF := by decide

/-- F155 storing V0, V1 on the last word of memory, and FF55 storing VE, VF there. -/
theorem witness_StoredInstructionRunsAtTheNextStep :
    let s := wordAt 0xF155 ((State.reset.setPc 0xFFC).setI 0xFFE)
    let t := wordAt 0xFF55 ((State.reset.setPc 0xFFC).setI 0xFF0)
    (s.pc.toNat + 4 ≤ Config.memSize ∧ WordAtPc s (encode (.storeRegs 1)) ∧ (0 : Nibble) < 1 ∧
      s.iPlus (0 : Nibble).toNat = s.pc + 2) ∧
    (t.pc.toNat + 4 ≤ Config.memSize ∧ WordAtPc t (encode (.storeRegs 0xF)) ∧ (0xE : Nibble) < 0xF ∧
      t.iPlus (0xE : Nibble).toNat = t.pc + 2) := by decide

/-- At sp = 0 the high byte lands and the low byte does not; at sp = 0x1000 the other way round. -/
theorem witness_CallPushesTheAdvancedPc :
    (InMemory (State.reset.setSp 0).sp ∧ ¬ InMemory ((State.reset.setSp 0).sp - 1)) ∧
    (¬ InMemory (State.reset.setSp 0x1000).sp ∧ InMemory ((State.reset.setSp 0x1000).sp - 1)) ∧
    (InMemory State.reset.sp ∧ InMemory (State.reset.sp - 1)) := by decide

theorem witness_ReturnPopsPc :
    (InMemory ((State.reset.setSp 0xFFE).sp + 1) ∧ ¬ InMemory ((State.reset.setSp 0xFFE).sp + 2)) ∧
    (¬ InMemory ((State.reset.setSp 0xFFFE).sp + 1) ∧ InMemory ((State.reset.setSp 0xFFFE).sp + 2)) ∧
    (InMemory ((State.reset.setSp 0xFFD).sp + 1) ∧ InMemory ((State.reset.setSp 0xFFD).sp + 2)) := by decide

theorem witness_CallThenReturnComesBack :
    let s := bytesAt 0x300 [0x00, 0xEE] (wordAt 0x2300 State.reset)
    PcInRange s ∧ WordAtPc s (encode (.call 0x300)) ∧ (0x300 : Imm12).toNat + 2 ≤ Config.memSize ∧
      s.mem.get (0x300 : Imm12).toNat = 0x00 ∧ s.mem.get ((0x300 : Imm12).toNat + 1) = 0xEE ∧
      InMemory s.sp ∧ InMemory (s.sp - 1) ∧
      ∀ a ∈ [s.sp.toNat, (s.sp - 1).toNat], a ≠ (0x300 : Imm12).toNat ∧ a ≠ (0x300 : Imm12).toNat + 1 := by decide

theorem witness_SkipTestsTheSelectedKey :
    (0x7 : Nibble).toNat = ((regs [(1, 0x17)]).reg 1).toNat % 16 ∧
    (0xF : Nibble).toNat = ((regs [(1, 0xFF)]).reg 1).toNat % 16 := by decide

theorem witness_UndefinedWordOnlyAdvancesPc :
    undefinedWord 0xFFFF = true ∧ PcInRange (wordAt 0xFFFF (State.reset.setPc 0xFFE)) ∧
      WordAtPc (wordAt 0xFFFF (State.reset.setPc 0xFFE)) 0xFFFF := by decide

theorem witness_LogicClearsTheFlag : (0xE : Nibble) ≠ 0xF := by decide

/-- The premise, and each arm of the flag at its boundary: 0xFF + 0x01 carries, 0xFF + 0x00 does not. -/
theorem witness_AddSetsTheCarry : (0xE : Nibble) ≠ 0xF ∧
    ((regs [(0xE, 0xFF), (1, 1)]).reg 0xE).toNat + ((regs [(0xE, 0xFF), (1, 1)]).reg 1).toNat > 255 ∧
    ¬ ((regs [(0xE, 0xFF), (1, 0)]).reg 0xE).toNat + ((regs [(0xE, 0xFF), (1, 0)]).reg 1).toNat > 255 := by decide

theorem witness_SubtractSetsNotBorrow : (0xE : Nibble) ≠ 0xF ∧
    ((regs [(0xE, 5), (1, 5)]).reg 0xE).toNat ≥ ((regs [(0xE, 5), (1, 5)]).reg 1).toNat ∧
    ¬ ((regs [(0xE, 5), (1, 6)]).reg 0xE).toNat ≥ ((regs [(0xE, 5), (1, 6)]).reg 1).toNat := by decide

theorem witness_ShiftsMoveVyByOne : (0x0 : Nibble) ≠ 0xF := by decide

/-- At I = 0xFFE two digits land and the third does not. -/
theorem witness_StoreDecimalDigits :
    InMemory ((State.reset.setI 0xFFE).iPlus 0) ∧ InMemory ((State.reset.setI 0xFFE).iPlus 1) ∧
    ¬ InMemory ((State.reset.setI 0xFFE).iPlus 2) ∧ InMemory ((State.reset.setI 0xFFD).iPlus 2) := by decide

theorem witness_StoreRegistersAtI :
    (1 : Nibble) ≤ 3 ∧ InMemory ((State.reset.setI 0xFFE).iPlus (1 : Nibble).toNat) ∧
    ¬ InMemory ((State.reset.setI 0xFFE).iPlus (2 : Nibble).toNat) := by decide

theorem witness_LoadRegistersFromI :
    ((3 : Nibble) ≤ 3 ∧ InMemory ((State.reset.setI 0xFFC).iPlus (3 : Nibble).toNat)) ∧
    ∀ k : Nibble, k ≤ 3 → InMemory ((State.reset.setI 0xFFC).iPlus k.toNat) := by decide

/-- What FX55 leaves, named, and that state with I back where it was. -/
theorem storeRegs_next (x : Nibble) (s : State) : ∃ t u : State, exec (.storeRegs x) s = .next t ∧
    (∀ a, u.mem.get a = t.mem.get a) ∧ u.iReg = s.iReg :=
  ⟨(State.storeFrom s.iReg (regCount x) s).setI (s.iPlus (regCount x)),
    (State.storeFrom s.iReg (regCount x) s).setI s.iReg, rfl, fun _ => rfl, rfl⟩

/-- All sixteen registers, in the last sixteen bytes of memory. -/
theorem witness_LoadGivesBackWhatStoreSaved :
    ∃ s t u : State, s.iReg.toNat + (0xF : Nibble).toNat < Config.memSize ∧ exec (.storeRegs 0xF) s = .next t ∧
      (∀ a, u.mem.get a = t.mem.get a) ∧ u.iReg = s.iReg := by
  obtain ⟨t, u, h⟩ := storeRegs_next 0xF (State.reset.setI 0xFF0)
  exact ⟨State.reset.setI 0xFF0, t, u, by decide, h⟩

/-- A state whose pixel (0, 0) is lit, with a one-row sprite of that pixel at 0x300. -/
def dot : State := (bytesAt 0x300 [0x80] (State.reset.setDisp (Display.setPixel State.reset.disp 0 0 true))).setI 0x300

/-- A drawn bit turns a lit pixel off; drawn on a clear display it turns none off; and the sprite is in memory. -/
theorem witness_DrawXorsTheSprite :
    (∀ r < (1 : Nibble).toNat, InMemory (dot.iPlus r)) ∧
    (∃ t, exec (.drw 1 2 1) dot = .next t ∧ ∃ c l, dot.pixel c l = true ∧ t.pixel c l = false) ∧
    (∃ t, exec (.drw 1 2 1) State.reset = .next t ∧
      ∀ c l, State.reset.pixel c l = true → t.pixel c l = true) := by
  refine ⟨by decide, ⟨_, rfl, 0, 0, by decide +kernel, by decide +kernel⟩, ⟨_, rfl, ?_⟩⟩
  have h : ∀ l c, State.reset.pixel c l = false := by decide +kernel
  intro c l hp
  rw [h] at hp
  cases hp

/-- `dot` before its pixel was lit: the same sprite on a clear display. -/
def blank : State := dot.setDisp Display.clear

/-- Both sides of the second draw's flag: on a clear display the sprite's bit covers a pixel that is 0, and over the
lit pixel it covers none. -/
theorem witness_DrawTwiceRestoresTheDisplay :
    ((∀ r < (1 : Nibble).toNat, InMemory (blank.iPlus r)) ∧
      (∃ t, exec (.drw 1 2 1) blank = .next t ∧ t.reg 1 = blank.reg 1 ∧ t.reg 2 = blank.reg 2) ∧
      blank.pixel 0 0 = false ∧ spriteBit (fun r => blank.mem.get (blank.iPlus r).toNat) 0 0 1 0 0 = true) ∧
    ((∀ r < (1 : Nibble).toNat, InMemory (dot.iPlus r)) ∧
      (∃ t, exec (.drw 1 2 1) dot = .next t ∧ t.reg 1 = dot.reg 1 ∧ t.reg 2 = dot.reg 2) ∧
      dot.pixel 0 0 = true ∧ dot.mem.get (dot.iPlus 0).toNat = 0x80) :=
  ⟨⟨by decide, ⟨_, rfl, by decide +kernel, by decide +kernel⟩, by decide +kernel, by decide +kernel⟩,
    ⟨by decide, ⟨_, rfl, by decide +kernel, by decide +kernel⟩, by decide +kernel, by decide +kernel⟩⟩

theorem witness_WaitKeyCompletesOnAPendingEvent : KeyEventPending (hostKeyUp 0x61 State.reset) :=
  ⟨by decide, 0, by decide⟩

theorem witness_WaitKeyRewindsOtherwise :
    let s := wordAt 0xF50A (State.reset.setPc 0xFFE)
    ¬ KeyEventPending s ∧ PcInRange s ∧ WordAtPc s (encode (.ldVxK 5)) :=
  ⟨fun h => absurd h.1 (by decide), by decide, by decide⟩

theorem witness_ReleaseEndsTheWaitAndPressDoesNot :
    let s := wordAt 0xF50A State.reset
    PcInRange s ∧ WordAtPc s (encode (.ldVxK 5)) ∧ ((0x7, 0x61) : Nibble × Byte) ∈ Config.keymap := by decide

/-- The longest accepted write at 0xFFE and the shortest rejected one. -/
theorem witness_RawWriteIsAllOrNothing :
    (0xFFE : Addr).toNat + ([1, 2] : List Byte).length ≤ Config.memSize ∧ 1 < ([1, 2] : List Byte).length ∧
    (0xFFE : Addr).toNat + ([1, 2, 3] : List Byte).length > Config.memSize := by decide

/-- Each timer changed by a tick and by its own instruction. -/
theorem witness_TimersFallOnlyByTicks :
    (∃ t r, perform .tickTimers ((State.reset.setDt 1).setSt 1) = .next (t, r) ∧ t.dt ≠ 1 ∧ t.st ≠ 1) ∧
    (∃ t r, perform .step (wordAt 0xF115 (regs [(1, 3)])) = .next (t, r) ∧ t.dt ≠ State.reset.dt) ∧
    (∃ t r, perform .step (wordAt 0xF118 (regs [(1, 3)])) = .next (t, r) ∧ t.st ≠ State.reset.st) :=
  ⟨⟨_, _, rfl, by decide, by decide⟩, ⟨_, _, rfl, by decide⟩, ⟨_, _, rfl, by decide⟩⟩

theorem witness_KeyEventsWriteKeyAndLatch :
    ((0x0, 0x78) : Nibble × Byte) ∈ Config.keymap ∧ ((0xF, 0x76) : Nibble × Byte) ∈ Config.keymap ∧
    ∀ k, (k, (0x70 : Byte)) ∉ Config.keymap := by decide

/-- The last pixel read, and the first element of the buffer past it. -/
theorem witness_ReadDisplayIsARowMajorSnapshot :
    (0 < 10 ∧ 31 % 32 * 64 + 63 % 64 + 0 = (31 : Fin 32).val * 64 + (63 : Fin 64).val) ∧
    1 ≥ (hostReadDisplay 63 31 10 State.reset).length := by decide +kernel

theorem witness_SetStartWritesPcAlone : InMemory 0xFFF ∧ ¬ InMemory 0x1000 := by decide

/-- The first and last start address R5 allows, and the two next to them that it does not. -/
theorem witness_ResetSetsPcSpAndFont :
    Config.ValidStart 1 ∧ Config.ValidStart 0xFFE ∧ ¬ Config.ValidStart 0 ∧ ¬ Config.ValidStart 0xFFF := by decide

theorem witness_ResetMeetsTheInvariant : Config.ValidStart 0xFFE := by decide

theorem witness_ResetClearsTheRest : Config.ValidStart 1 ∧
    Config.fontBase.toNat + 80 ≤ 80 ∧ ¬ Config.fontBase.toNat + 80 ≤ 79 := by decide

/-- 3582 bytes after the first two fill memory to its end; one more does not fit. -/
theorem witness_BootRunsTheLoadedProgram :
    (List.replicate 3582 (0 : Byte)).length ≤ 3582 ∧ (List.replicate 3583 (0 : Byte)).length > 3582 := by
  simp only [List.length_replicate]
  decide

/-- A state of a run with memory cells and a raised latch that meets the invariant. -/
def running : State := hostKeyUp 0x61 (wordAt 0x2300 State.reset)

theorem running_inv : running.Inv := ⟨by decide, fun _ => ⟨0, by decide⟩⟩

theorem witness_StepKeepsTheInvariant : running.Inv ∧ ∃ t, step running = .next t := ⟨running_inv, _, rfl⟩

theorem witness_OperationsKeepTheInvariant : running.Inv ∧
    (∃ t r, perform (.keyDown 0x61) running = .next (t, r)) ∧
    (∃ t, performAll [.write 0x300 [1], .step, .tickTimers] running = .next t) :=
  ⟨running_inv, ⟨_, _, rfl⟩, ⟨_, rfl⟩⟩

/-- Two orders of the same writes. -/
theorem witness_CanonicalMemoriesAreTheirReads :
    let m := (Memory.put [] 0x300 5).put 0x200 6
    let n := (Memory.put [] 0x200 6).put 0x300 5
    m.wf ∧ n.wf ∧ ∀ a, m.get a = n.get a := by
  refine ⟨by decide, by decide, fun a => ?_⟩
  rw [show (Memory.put [] 0x300 5).put 0x200 6 = (Memory.put [] 0x200 6).put 0x300 5 by decide]

theorem witness_InstructionsChangeOnlyTheirOwnParts : ∃ t, exec (.call 0x300) State.reset = .next t := ⟨_, rfl⟩

/-- FX0A on both sides, and the arms of a skip. -/
theorem witness_PcAfterEachInstruction :
    (∃ t, exec (.ldVxK 5) running = .next t) ∧ KeyEventPending running ∧ ¬ KeyEventPending State.reset ∧
    State.reset.reg 1 = 0x00 ∧ State.reset.reg 1 ≠ 0x01 :=
  ⟨⟨_, rfl⟩, ⟨by decide, 0, by decide⟩, fun h => absurd h.1 (by decide), by decide, by decide⟩

theorem witness_NoInstructionReadsTheSoundTimer : ∃ t, exec (.ldVxDt 1) State.reset = .next t := ⟨_, rfl⟩

theorem witness_OnlyWaitKeyReadsTheLatch :
    (∀ x, Instr.skp 1 ≠ .ldVxK x) ∧ ∃ t, exec (.skp 1) running = .next t := ⟨by decide, _, rfl⟩

theorem witness_OnlyAMappedKeyUpRaisesTheLatch :
    ∃ t r, perform (.keyUp 0x61) State.reset = .next (t, r) ∧ State.reset.ka = false ∧ t.ka = true :=
  ⟨_, _, rfl, by decide, by decide⟩

theorem witness_OnlyKeyEventsWriteKeyStates :
    ∃ t r, perform (.keyDown 0x61) State.reset = .next (t, r) ∧ t.keyIsDown 7 ≠ State.reset.keyIsDown 7 :=
  ⟨_, _, rfl, by decide⟩

end Sys2Proof.Tests
end

namespace Sys2Proof.Machine

/-! ## Frames: one rule per update of the state

Each rule extends a frame by one more update, if the part it writes is among the parts that may change. -/

theorem SameBut.refl (C : Part → Prop) (s : State) : SameBut C s s := by
  intro p _
  cases p <;> rfl

theorem SameBut.trans {C : Part → Prop} {s t u : State} (h : SameBut C s t) (h' : SameBut C t u) :
    SameBut C s u := by
  intro p hp
  have hst := h p hp
  have htu := h' p hp
  cases p <;> exact Eq.trans htu hst

section
variable {C : Part → Prop} {s t : State}

theorem SameBut.setReg (h : SameBut C s t) {r : Nibble} (hr : C (.reg r)) (v : Byte) :
    SameBut C s (t.setReg r v) := by
  refine h.trans fun p hp => ?_
  cases p with
  | reg q =>
    have hq : q ≠ r := fun e => hp (e ▸ hr)
    simp [Same, hq]
  | _ => rfl

theorem SameBut.setI (h : SameBut C s t) (hi : C .addrReg) (v : Addr) : SameBut C s (t.setI v) := by
  refine h.trans fun p hp => ?_
  cases p with
  | addrReg => exact absurd hi hp
  | _ => rfl

theorem SameBut.setPc (h : SameBut C s t) (hpc : C .pc) (v : Addr) : SameBut C s (t.setPc v) := by
  refine h.trans fun p hp => ?_
  cases p with
  | pc => exact absurd hpc hp
  | _ => rfl

theorem SameBut.setSp (h : SameBut C s t) (hsp : C .sp) (v : Addr) : SameBut C s (t.setSp v) := by
  refine h.trans fun p hp => ?_
  cases p with
  | sp => exact absurd hsp hp
  | _ => rfl

theorem SameBut.memWrite (h : SameBut C s t) {a : Addr} (ha : C (.byte a.toNat)) (v : Byte) :
    SameBut C s (t.memWrite a v) := by
  refine h.trans fun p hp => ?_
  cases p with
  | byte b =>
    have hb : b ≠ a.toNat := fun e => hp (e ▸ ha)
    simp [Same, hb]
  | _ => rfl

theorem SameBut.setDt (h : SameBut C s t) (hdt : C .delayTimer) (v : Byte) : SameBut C s (t.setDt v) := by
  refine h.trans fun p hp => ?_
  cases p with
  | delayTimer => exact absurd hdt hp
  | _ => rfl

theorem SameBut.setSt (h : SameBut C s t) (hst : C .soundTimer) (v : Byte) : SameBut C s (t.setSt v) := by
  refine h.trans fun p hp => ?_
  cases p with
  | soundTimer => exact absurd hst hp
  | _ => rfl

theorem SameBut.setDisp (h : SameBut C s t) (hd : ∀ c l, C (.pixel c l)) (d : Display) :
    SameBut C s (t.setDisp d) := by
  refine h.trans fun p hp => ?_
  cases p with
  | pixel c l => exact absurd (hd c l) hp
  | _ => rfl

theorem SameBut.setKa (h : SameBut C s t) (hka : C .latch) (b : Bool) : SameBut C s (t.setKa b) := by
  refine h.trans fun p hp => ?_
  cases p with
  | latch => exact absurd hka hp
  | _ => rfl

theorem SameBut.setDraws (h : SameBut C s t) (hd : C .draws) (n : Nat) : SameBut C s (t.setDraws n) := by
  refine h.trans fun p hp => ?_
  cases p with
  | draws => exact absurd hd hp
  | _ => rfl

/-! ### Frames of the shared operations -/

theorem SameBut.memRead (h : SameBut C s t) (hd : C .draws) (a : Addr) : SameBut C s (t.memRead a).2 := by
  obtain ⟨n, hn⟩ := t.memRead_state a
  rw [hn]
  exact h.setDraws hd n

theorem SameBut.pop16 (h : SameBut C s t) (hsp : C .sp) (hd : C .draws) : SameBut C s t.pop16.2 := by
  obtain ⟨lo, hi, n, hpop, -, -⟩ := t.pop16_cases
  rw [hpop]
  exact (h.setSp hsp _).setDraws hd n

theorem SameBut.push16 (h : SameBut C s t) (hsp : C .sp) (hhi : C (.byte t.sp.toNat))
    (hlo : C (.byte (t.sp - 1).toNat)) (v : Addr) : SameBut C s (t.push16 v) := by
  rw [State.push16_eq]
  exact ((h.memWrite hhi _).memWrite hlo _).setSp hsp _

theorem SameBut.skipIf (h : SameBut C s t) (hpc : C .pc) (c : Bool) : SameBut C s (t.skipIf c) := by
  rw [State.skipIf_eq]
  exact h.setPc hpc _

theorem SameBut.writeFlagged (h : SameBut C s t) {x : Nibble} (hx : C (.reg x)) (hf : C (.reg vf))
    (v : Byte) (c : Bool) : SameBut C s (t.writeFlagged x v c) :=
  (h.setReg hx v).setReg hf (flagByte c)

theorem SameBut.storeFrom (h : SameBut C s t) (base : Addr) {n : Nat}
    (hb : ∀ i < n, C (.byte (base + BitVec.ofNat 16 i).toNat)) : SameBut C s (State.storeFrom base n t) := by
  induction n with
  | zero => exact h
  | succ n ih => exact (ih fun i hi => hb i (by omega)).memWrite (hb n (by omega)) _

theorem SameBut.loadFrom (h : SameBut C s t) (base : Addr) (hd : C .draws) {n : Nat}
    (hr : ∀ i < n, C (.reg (BitVec.ofNat 4 i))) : SameBut C s (State.loadFrom base n t) := by
  induction n with
  | zero => exact h
  | succ n ih => exact ((ih fun i hi => hr i (by omega)).memRead hd _).setReg (hr n (by omega)) _

theorem SameBut.drawRows (h : SameBut C s t) (hp : ∀ c l, C (.pixel c l)) (hd : C .draws)
    (x0 y0 : Nat) (base : Addr) (n : Nat) : SameBut C s (State.drawRows x0 y0 base n t).1 := by
  obtain ⟨d, k, hdk⟩ := State.drawRows_state x0 y0 base n t
  rw [hdk]
  exact (h.setDisp hp d).setDraws hd k

end

/-! ## What FX0A can do (44 R184) -/

/-- FX0A completes exactly when a key event is pending; else it rewinds pc. -/
theorem execLdVxK_cases (x : Nibble) (s : State) :
    (KeyEventPending s ∧ ∃ k, execLdVxK x s = .next ((s.setReg x (zextKey k)).setKa false)) ∨
    (¬ KeyEventPending s ∧ execLdVxK x s = .next s.rewindPc) := by
  unfold execLdVxK
  cases hka : s.ka with
  | false => exact .inr ⟨fun ⟨hup, _⟩ => absurd (hka.symm.trans hup) (by decide), rfl⟩
  | true =>
    rcases s.leastUpKey_cases with ⟨k, hk, hup, -⟩ | ⟨hnone, hdown⟩
    · exact .inl ⟨⟨hka, k, hup⟩, k, by rw [hk]⟩
    · refine .inr ⟨fun ⟨_, k, hup⟩ => ?_, by rw [hnone]⟩
      exact absurd ((hdown k).symm.trans hup) (by decide)

/-- What FX0A leaves, read off a dispatched run. -/
theorem exec_ldVxK_cases {x : Nibble} {s t : State} (h : exec (.ldVxK x) s = .next t) :
    (KeyEventPending s ∧ ∃ k, t = (s.setReg x (zextKey k)).setKa false) ∨
    (¬ KeyEventPending s ∧ t = s.rewindPc) := by
  rcases execLdVxK_cases x s with ⟨hp, k, hk⟩ | ⟨hp, hk⟩
  · exact .inl ⟨hp, k, Host.Outcome.next.inj (h.symm.trans hk)⟩
  · exact .inr ⟨hp, Host.Outcome.next.inj (h.symm.trans hk)⟩

/-! ## The frame of every instruction -/

/-- The registers a block load names are those up to `x` (42 R165). -/
theorem ofNat_le_of_lt_regCount {x : Nibble} {i : Nat} (h : i < regCount x) : BitVec.ofNat 4 i ≤ x := by
  unfold regCount at h
  have := x.isLt
  rw [BitVec.le_def, BitVec.toNat_ofNat, Nat.mod_eq_of_lt (by omega)]
  omega

/-- The meaning of each instruction is a chain of updates, each of a part its row lets it change. -/
theorem exec_sameBut {i : Instr} {s t : State} (h : exec i s = .next t) : SameBut (mayChange i s) s t := by
  have same := SameBut.refl (mayChange i s) s
  cases i
  case ldVxK x =>
    rcases exec_ldVxK_cases h with ⟨-, k, rfl⟩ | ⟨-, rfl⟩
    · exact (same.setReg (.inl rfl) _).setKa (.inr (.inl rfl)) _
    · exact same.setPc (.inr (.inr rfl)) _
  all_goals obtain rfl := Host.Outcome.next.inj h
  case cls => exact same.setDisp (fun c l => ⟨c, l, rfl⟩) _
  case ret => exact (same.pop16 (.inr (.inl rfl)) (.inr (.inr rfl))).setPc (.inl rfl) _
  case jp | jpV0 => exact same.setPc rfl _
  case call =>
    exact (same.push16 (.inr (.inl rfl)) (.inr (.inr (.inl rfl))) (.inr (.inr (.inr rfl))) _).setPc (.inl rfl) _
  case seImm | sneImm | seReg | sneReg | skp | sknp => exact same.skipIf rfl _
  case ldImm | addImm | ldReg | ldVxDt => exact same.setReg rfl _
  case orReg | andReg | xorReg | addReg | subReg | shr | subn | shl =>
    exact same.writeFlagged (.inl rfl) (.inr rfl) _ _
  case ldI | addI | ldF => exact same.setI rfl _
  case rnd => exact (same.setDraws (.inr rfl) _).setReg (.inl rfl) _
  case drw =>
    exact (same.drawRows (fun c l => .inl ⟨c, l, rfl⟩) (.inr (.inr rfl)) _ _ _ _).setReg (.inr (.inl rfl)) _
  case ldDtVx => exact same.setDt rfl _
  case ldStVx => exact same.setSt rfl _
  case ldB =>
    exact ((same.memWrite ⟨0, by omega, rfl⟩ _).memWrite ⟨1, by omega, rfl⟩ _).memWrite ⟨2, by omega, rfl⟩ _
  case storeRegs => exact (same.storeFrom _ fun i hi => .inr ⟨i, hi, rfl⟩).setI (.inl rfl) _
  case loadRegs =>
    exact (same.loadFrom _ (.inr (.inl rfl)) fun i hi =>
      .inr (.inr ⟨_, ofNat_le_of_lt_regCount hi, rfl⟩)).setI (.inl rfl) _
  case undef => exact same

/-! ## Keys, latch and the form of memory across an instruction -/

theorem not_mayChange_key (i : Instr) (s : State) (k : Nibble) : ¬ mayChange i s (.key k) := by
  cases i <;> simp [mayChange]

/-- No instruction writes a key state (10_state R39). -/
theorem exec_keyIsDown {i : Instr} {s t : State} (h : exec i s = .next t) (k : Nibble) :
    t.keyIsDown k = s.keyIsDown k :=
  exec_sameBut h (.key k) (not_mayChange_key i s k)

/-- An instruction can only lower the latch: FX0A where it completes (44 R184), no other writes it. -/
theorem exec_ka {i : Instr} {s t : State} (h : exec i s = .next t) (hka : t.ka = true) : s.ka = true := by
  cases i
  case ldVxK x =>
    rcases exec_ldVxK_cases h with ⟨⟨hup, -⟩, -⟩ | ⟨-, rfl⟩
    · exact hup
    · exact hka
  all_goals exact (exec_sameBut h .latch (by simp [mayChange])).symm.trans hka

/-- Memory is written by `Memory.put` alone, so every instruction keeps its canonical form (log 3). -/
theorem exec_keeps_wf {i : Instr} {s t : State} (h : exec i s = .next t) (hm : s.mem.wf) : t.mem.wf := by
  cases i
  case ldVxK x =>
    rcases exec_ldVxK_cases h with ⟨-, k, rfl⟩ | ⟨-, rfl⟩ <;> exact hm
  all_goals obtain rfl := Host.Outcome.next.inj h
  case call => exact State.memWrite_wf (State.memWrite_wf hm _ _) _ _
  case ldB => exact State.memWrite_wf (State.memWrite_wf (State.memWrite_wf hm _ _) _ _) _ _
  case storeRegs => exact State.storeFrom_wf _ _ hm
  case loadRegs => rw [State.setI_mem, State.loadFrom_mem]; exact hm
  case ret =>
    obtain ⟨lo, hi, n, hpop, -, -⟩ := s.pop16_cases
    rw [hpop]
    exact hm
  case drw x y n =>
    obtain ⟨d, k, hdk⟩ := State.drawRows_state (originX (s.reg x)) (originY (s.reg y)) s.iReg n.toNat s
    rw [State.setReg_mem, hdk]
    exact hm
  case seImm | sneImm | seReg | sneReg | skp | sknp => rw [State.skipIf_eq]; exact hm
  all_goals exact hm

theorem exec_keeps_inv {i : Instr} {s t : State} (h : exec i s = .next t) (hs : s.Inv) : t.Inv := by
  obtain ⟨hm, hl⟩ := hs
  refine ⟨exec_keeps_wf h hm, fun hka => ?_⟩
  obtain ⟨k, hk⟩ := hl (exec_ka h hka)
  exact ⟨k, (exec_keyIsDown h k).trans hk⟩

/-! ## Steps and operations -/

/-- A step is the fetched instruction, from the state with free values counted and pc advanced (45 R191). -/
theorem step_cases {s t : State} (h : step s = .next t) :
    ∃ n, exec (decode s.fetch.1) (s.setDraws n).advancePc = .next t := by
  obtain ⟨n, hn⟩ := s.fetch_state
  exact ⟨n, hn ▸ h⟩

/-- Settles O47: an instruction keeps the invariant, and fetching and advancing pc write neither memory, keys
nor latch. -/
theorem stepKeepsTheInvariant : Obligations.StepKeepsTheInvariant := by
  intro s t hs h
  obtain ⟨n, hi⟩ := step_cases h
  exact exec_keeps_inv hi hs

/-- A step writes no key state (10_state R39). -/
theorem step_keyIsDown {s t : State} (h : step s = .next t) (k : Nibble) : t.keyIsDown k = s.keyIsDown k := by
  obtain ⟨n, hi⟩ := step_cases h
  exact exec_keyIsDown hi k

/-- A step does not raise the latch (10_state R42). -/
theorem step_ka {s t : State} (h : step s = .next t) (hka : t.ka = true) : s.ka = true := by
  obtain ⟨n, hi⟩ := step_cases h
  exact exec_ka (s := (s.setDraws n).advancePc) hi hka

theorem hostKeyDown_cases (code : Byte) (s : State) :
    (∃ k, (k, code) ∈ Config.keymap ∧ hostKeyDown code s = keyDownLogical k s) ∨ hostKeyDown code s = s := by
  unfold hostKeyDown
  cases hk : logicalKey code with
  | some k => exact .inl ⟨k, keymap_of_logicalKey hk, rfl⟩
  | none => exact .inr rfl

theorem hostKeyUp_cases (code : Byte) (s : State) :
    (∃ k, (k, code) ∈ Config.keymap ∧ hostKeyUp code s = keyUpLogical k s) ∨ hostKeyUp code s = s := by
  unfold hostKeyUp
  cases hk : logicalKey code with
  | some k => exact .inl ⟨k, keymap_of_logicalKey hk, rfl⟩
  | none => exact .inr rfl

/-- Keys and latch are the same in both states, and memory stays canonical if it was. -/
def KeepsInput (s t : State) : Prop := t.key = s.key ∧ t.ka = s.ka ∧ (s.mem.wf → t.mem.wf)

theorem KeepsInput.refl (s : State) : KeepsInput s s := ⟨rfl, rfl, id⟩

theorem KeepsInput.keyIsDown {s t : State} (h : KeepsInput s t) (k : Nibble) : t.keyIsDown k = s.keyIsDown k := by
  unfold State.keyIsDown
  rw [h.1]

theorem KeepsInput.inv {s t : State} (h : KeepsInput s t) (hs : s.Inv) : t.Inv := by
  obtain ⟨hm, hl⟩ := hs
  have ⟨_, hka, hwf⟩ := h
  refine ⟨hwf hm, fun hup => ?_⟩
  obtain ⟨k, hk⟩ := hl (hka.symm.trans hup)
  exact ⟨k, (h.keyIsDown k).trans hk⟩

theorem hostWrite_keepsInput (a : Addr) (bs : List Byte) (s : State) : KeepsInput s (hostWrite a bs s).1 := by
  unfold hostWrite
  split
  · exact .refl s
  · exact ⟨rfl, rfl, fun hm => Memory.putAll_wf bs hm a.toNat⟩

theorem hostSetStart_keepsInput (a : Addr) (s : State) : KeepsInput s (hostSetStart a s).1 := by
  unfold hostSetStart
  split
  · exact .refl s
  · exact ⟨rfl, rfl, id⟩

theorem state_of_next_eq {p : State × Reply} {t : State} {r : Reply}
    (h : (.next p : Host.Outcome (State × Reply) Fault Refusal) = .next (t, r)) : p.1 = t :=
  congrArg Prod.fst (Host.Outcome.next.inj h)

/-- Everything an operation can do to keys and latch: it is a step, or a key event of a mapped code, or it leaves
both alone (45 R190 to R197). -/
theorem perform_cases {o : Op} {s t : State} {r : Reply} (h : perform o s = .next (t, r)) :
    (o = .step ∧ step s = .next t) ∨
    (∃ code k, o = .keyDown code ∧ (k, code) ∈ Config.keymap ∧ t = keyDownLogical k s) ∨
    (∃ code k, o = .keyUp code ∧ (k, code) ∈ Config.keymap ∧ t = keyUpLogical k s) ∨
    KeepsInput s t := by
  cases o with
  | step =>
    simp only [perform] at h
    split at h
    case h_1 u hu =>
      obtain rfl : u = t := state_of_next_eq h
      exact .inl ⟨rfl, hu⟩
    all_goals cases h
  | write a bs =>
    obtain rfl : (hostWrite a bs s).1 = t := state_of_next_eq h
    exact .inr (.inr (.inr (hostWrite_keepsInput a bs s)))
  | tickTimers =>
    obtain rfl : hostTick s = t := state_of_next_eq h
    exact .inr (.inr (.inr ⟨rfl, rfl, id⟩))
  | keyDown code =>
    obtain rfl : hostKeyDown code s = t := state_of_next_eq h
    rcases hostKeyDown_cases code s with ⟨k, hk, e⟩ | e
    · exact .inr (.inl ⟨code, k, rfl, hk, e⟩)
    · exact .inr (.inr (.inr (e.symm ▸ .refl s)))
  | keyUp code =>
    obtain rfl : hostKeyUp code s = t := state_of_next_eq h
    rcases hostKeyUp_cases code s with ⟨k, hk, e⟩ | e
    · exact .inr (.inr (.inl ⟨code, k, rfl, hk, e⟩))
    · exact .inr (.inr (.inr (e.symm ▸ .refl s)))
  | readDisplay xo yo len =>
    obtain rfl : s = t := state_of_next_eq h
    exact .inr (.inr (.inr (.refl s)))
  | setStart a =>
    obtain rfl : (hostSetStart a s).1 = t := state_of_next_eq h
    exact .inr (.inr (.inr (hostSetStart_keepsInput a s)))

/-- An operation keeps the invariant: key_up raises the latch with its own key up, key_down lowers it. -/
theorem perform_keeps_inv {o : Op} {s t : State} {r : Reply} (hs : s.Inv) (h : perform o s = .next (t, r)) :
    t.Inv := by
  rcases perform_cases h with ⟨-, hstep⟩ | ⟨_, k, -, -, rfl⟩ | ⟨_, k, -, -, rfl⟩ | hk
  · exact stepKeepsTheInvariant s t hs hstep
  · exact ⟨hs.1, fun hup => absurd hup (by simp [keyDownLogical])⟩
  · exact ⟨hs.1, fun _ => ⟨k, by simp [keyUpLogical]⟩⟩
  · exact hk.inv hs

theorem performAll_keeps_inv (os : List Op) {s t : State} (hs : s.Inv) (h : performAll os s = .next t) :
    t.Inv := by
  induction os generalizing s with
  | nil =>
    obtain rfl := Host.Outcome.next.inj h
    exact hs
  | cons o os ih =>
    simp only [performAll] at h
    split at h
    case h_1 u r hu => exact ih (perform_keeps_inv hs hu) h
    all_goals cases h

/-- Settles O48, from the invariant of one operation by induction on the schedule. -/
theorem operationsKeepTheInvariant : Obligations.OperationsKeepTheInvariant :=
  ⟨fun _ _ _ _ => perform_keeps_inv, fun os _ _ => performAll_keeps_inv os⟩

/-- Settles O51: every instruction is a chain of updates its row names. -/
theorem instructionsChangeOnlyTheirOwnParts : Obligations.InstructionsChangeOnlyTheirOwnParts :=
  fun _ _ _ => exec_sameBut

/-! ## pc after each instruction (10_state R30) -/

theorem zextImm12_toNat (nnn : Imm12) : (zextImm12 nnn).toNat = nnn.toNat := by
  have := nnn.isLt
  rw [zextImm12, BitVec.toNat_setWidth, Nat.mod_eq_of_lt (by omega)]

theorem zextByte_toNat (b : Byte) : (zextByte b).toNat = b.toNat := by
  have := b.isLt
  rw [zextByte, BitVec.toNat_setWidth, Nat.mod_eq_of_lt (by omega)]

/-- The sum of BNNN does not leave 16 bits (40_flow R123). -/
theorem zextImm12_add_zextByte_toNat (nnn : Imm12) (b : Byte) :
    (zextImm12 nnn + zextByte b).toNat = nnn.toNat + b.toNat := by
  have := nnn.isLt
  have := b.isLt
  rw [BitVec.toNat_add, zextImm12_toNat, zextByte_toNat, Nat.mod_eq_of_lt (by omega)]

theorem State.skipIf_pc (s : State) (c : Bool) : (s.skipIf c).pc = if c then s.pc + 2 else s.pc := by
  rw [State.skipIf_eq, State.setPc_pc]

/-- Settles O52: the control transfers and skips by their own meaning, every other instruction by its frame. -/
theorem pcAfterEachInstruction : Obligations.PcAfterEachInstruction := by
  intro i s t h
  cases i
  case ldVxK x =>
    rcases exec_ldVxK_cases h with ⟨hp, k, rfl⟩ | ⟨hp, rfl⟩
    · exact ⟨fun _ => rfl, fun hn => absurd hp hn⟩
    · exact ⟨fun hy => absurd hy hp, fun _ => rfl⟩
  case seImm | seReg | sneImm | sneReg | skp =>
    obtain rfl := Host.Outcome.next.inj h
    simp [State.skipIf_pc]
  case sknp x =>
    obtain rfl := Host.Outcome.next.inj h
    cases hk : s.keyIsDown (keySelect (s.reg x)) <;> simp [State.skipIf_pc, hk]
  case jp nnn | call nnn =>
    obtain rfl := Host.Outcome.next.inj h
    exact zextImm12_toNat nnn
  case jpV0 nnn =>
    obtain rfl := Host.Outcome.next.inj h
    exact zextImm12_add_zextByte_toNat nnn _
  case ret =>
    obtain rfl := Host.Outcome.next.inj h
    rfl
  all_goals exact exec_sameBut h .pc (by simp [mayChange])

/-! ## Two runs that differ in the sound timer and the latch -/

/-- The state with the sound timer and the latch replaced by functions of themselves. -/
def State.mapStKa (f : Byte → Byte) (g : Bool → Bool) (s : State) : State := { s with st := f s.st, ka := g s.ka }

section
variable (f : Byte → Byte) (g : Bool → Bool) (s : State)

theorem State.setSt_eq_mapStKa (v : Byte) : s.setSt v = s.mapStKa (fun _ => v) id := rfl

theorem State.setKa_eq_mapStKa (b : Bool) : s.setKa b = s.mapStKa id (fun _ => b) := rfl

theorem State.memRead_mapStKa (a : Addr) :
    (s.mapStKa f g).memRead a = ((s.memRead a).1, (s.memRead a).2.mapStKa f g) := by
  by_cases ha : a.toNat < 4096
  · rw [State.memRead_inside _ ha, State.memRead_inside _ ha]; rfl
  · rw [State.memRead_outside _ ha, State.memRead_outside _ ha]; rfl

theorem State.pop8_mapStKa : (s.mapStKa f g).pop8 = (s.pop8.1, s.pop8.2.mapStKa f g) :=
  State.memRead_mapStKa f g (s.setSp (s.sp + 1)) (s.sp + 1)

theorem State.pop16_mapStKa : (s.mapStKa f g).pop16 = (s.pop16.1, s.pop16.2.mapStKa f g) := by
  simp only [State.pop16, State.pop8_mapStKa]

theorem State.skipIf_mapStKa (c : Bool) : (s.mapStKa f g).skipIf c = (s.skipIf c).mapStKa f g := by
  cases c <;> rfl

theorem State.storeFrom_mapStKa (base : Addr) (n : Nat) :
    State.storeFrom base n (s.mapStKa f g) = (State.storeFrom base n s).mapStKa f g := by
  induction n with
  | zero => rfl
  | succ n ih => simp only [State.storeFrom, ih]; rfl

theorem State.loadFrom_mapStKa (base : Addr) (n : Nat) :
    State.loadFrom base n (s.mapStKa f g) = (State.loadFrom base n s).mapStKa f g := by
  induction n with
  | zero => rfl
  | succ n ih => simp only [State.loadFrom, ih, State.memRead_mapStKa]; rfl

theorem State.drawRows_mapStKa (x0 y0 : Nat) (base : Addr) (n : Nat) :
    State.drawRows x0 y0 base n (s.mapStKa f g) =
      ((State.drawRows x0 y0 base n s).1.mapStKa f g, (State.drawRows x0 y0 base n s).2) := by
  induction n with
  | zero => rfl
  | succ n ih =>
    simp only [State.drawRows, ih, State.memRead_mapStKa]
    split <;> rfl

/-- The key search reads key states alone. -/
theorem State.leastUpFrom_mapStKa (n : Nat) : (s.mapStKa f g).leastUpFrom n = s.leastUpFrom n := by
  induction n with
  | zero => rfl
  | succ n ih => simp only [State.leastUpFrom, ih]; rfl

/-- FX0A reads the latch, but not the sound timer. -/
theorem execLdVxK_setSt {x : Nibble} {s t : State} (v : Byte) (h : execLdVxK x s = .next t) :
    execLdVxK x (s.setSt v) = .next (t.setSt v) := by
  have hkey : (s.setSt v).leastUpKey = s.leastUpKey := State.leastUpFrom_mapStKa (fun _ => v) id s 16
  unfold execLdVxK at h ⊢
  rw [State.setSt_ka, hkey]
  split at h <;> (obtain rfl := Host.Outcome.next.inj h; rfl)

end

/-- Every instruction but FX0A and FX18 carries the sound timer and the latch along without reading them. -/
theorem exec_mapStKa {i : Instr} {s t : State} (f : Byte → Byte) (g : Bool → Bool)
    (hwait : ∀ x, i ≠ .ldVxK x) (hsound : ∀ x, i ≠ .ldStVx x) (h : exec i s = .next t) :
    exec i (s.mapStKa f g) = .next (t.mapStKa f g) := by
  cases i
  case ldVxK x => exact absurd rfl (hwait x)
  case ldStVx x => exact absurd rfl (hsound x)
  all_goals obtain rfl := Host.Outcome.next.inj h
  case ret =>
    exact congrArg (fun p : Addr × State => Host.Outcome.next (p.2.setPc p.1)) (State.pop16_mapStKa f g s)
  case seImm | sneImm | seReg | sneReg | skp | sknp =>
    exact congrArg Host.Outcome.next (State.skipIf_mapStKa f g s _)
  case drw =>
    exact congrArg (fun p : State × Bool => Host.Outcome.next (p.1.setReg vf (flagByte p.2)))
      (State.drawRows_mapStKa f g s _ _ _ _)
  case storeRegs =>
    exact congrArg (fun u : State => Host.Outcome.next (u.setI _)) (State.storeFrom_mapStKa f g s _ _)
  case loadRegs =>
    exact congrArg (fun u : State => Host.Outcome.next (u.setI _)) (State.loadFrom_mapStKa f g s _ _)
  all_goals rfl

/-- Settles O53: FX18 overwrites the sound timer, every other instruction carries it along. -/
theorem noInstructionReadsTheSoundTimer : Obligations.NoInstructionReadsTheSoundTimer := by
  intro i s t v h
  cases i
  case ldStVx x =>
    obtain rfl := Host.Outcome.next.inj h
    rfl
  case ldVxK x => exact execLdVxK_setSt v h
  all_goals
    simp only [State.setSt_eq_mapStKa]
    exact exec_mapStKa _ _ (by simp) (by simp) h

/-- Settles O54: FX18 touches the sound timer alone, every other instruction but FX0A carries the latch along. -/
theorem onlyWaitKeyReadsTheLatch : Obligations.OnlyWaitKeyReadsTheLatch := by
  intro i s t b hwait h
  by_cases hsound : ∃ x, i = .ldStVx x
  · obtain ⟨x, rfl⟩ := hsound
    obtain rfl := Host.Outcome.next.inj h
    rfl
  · rw [State.setKa_eq_mapStKa, State.setKa_eq_mapStKa]
    exact exec_mapStKa _ _ hwait (fun x e => hsound ⟨x, e⟩) h

/-! ## Which operations write the latch and the keys -/

/-- Settles O55: steps and key_down do not raise the latch, and the other operations leave it alone. -/
theorem onlyAMappedKeyUpRaisesTheLatch : Obligations.OnlyAMappedKeyUpRaisesTheLatch := by
  intro o s t r h hlow hup
  rcases perform_cases h with ⟨-, hstep⟩ | ⟨_, k, -, -, rfl⟩ | ⟨code, k, ho, hk, -⟩ | ⟨-, hka, -⟩
  · exact absurd (hlow.symm.trans (step_ka hstep hup)) (by decide)
  · exact absurd hup (by simp [keyDownLogical])
  · exact ⟨code, k, ho, hk⟩
  · exact absurd (hlow.symm.trans (hka.symm.trans hup)) (by decide)

theorem keyDownLogical_keyIsDown_other {k q : Nibble} (s : State) (h : q ≠ k) :
    (keyDownLogical k s).keyIsDown q = s.keyIsDown q := by
  simp [keyDownLogical, h]

theorem keyUpLogical_keyIsDown_other {k q : Nibble} (s : State) (h : q ≠ k) :
    (keyUpLogical k s).keyIsDown q = s.keyIsDown q := by
  simp [keyUpLogical, h]

/-- Settles O56: a key event writes its own key's state, and no other operation writes a key state. -/
theorem onlyKeyEventsWriteKeyStates : Obligations.OnlyKeyEventsWriteKeyStates := by
  intro o s t r q h hq
  rcases perform_cases h with ⟨-, hstep⟩ | ⟨code, k, ho, hk, rfl⟩ | ⟨code, k, ho, hk, rfl⟩ | hkeep
  · exact absurd (step_keyIsDown hstep q) hq
  · obtain rfl : q = k := by_contra fun hne => hq (keyDownLogical_keyIsDown_other s hne)
    exact ⟨code, hk, .inl ho⟩
  · obtain rfl : q = k := by_contra fun hne => hq (keyUpLogical_keyIsDown_other s hne)
    exact ⟨code, hk, .inr ho⟩
  · exact absurd (hkeep.keyIsDown q) hq

/-! ## Reset (10_state R40) -/

theorem Memory.unlisted_outside_font {a : Nat}
    (h : a < Config.fontBase.toNat ∨ Config.fontBase.toNat + 80 ≤ a) : Memory.unlisted a = 0 := by
  unfold Memory.unlisted
  split
  · rw [List.getElem?_eq_none (by rw [Config.fontTable_length]; omega)]
    rfl
  · rfl

/-- Settles O45: the reset values of R40's table; memory lists no cell, so it reads as its reset content. -/
theorem resetClearsTheRest : Obligations.ResetClearsTheRest := by
  intro start h
  refine ⟨State.resetAt_reg start h, rfl, rfl, rfl, State.resetAt_pixel start h, State.resetAt_keyIsDown start h,
    rfl, fun a ha => ?_⟩
  rw [State.resetAt_mem, Memory.get_nil]
  exact Memory.unlisted_outside_font ha

theorem State.resetAt_inv (start : Addr) (h : Config.ValidStart start) : (State.resetAt start h).Inv :=
  ⟨Memory.nil_wf, fun hka => absurd hka (by simp [State.resetAt])⟩

/-- Settles O49: reset's memory is empty and its latch is down. -/
theorem resetMeetsTheInvariant : Obligations.ResetMeetsTheInvariant :=
  ⟨State.resetAt_inv _ _, State.resetAt_inv⟩

end Sys2Proof.Machine

namespace Sys2Proof.Machine

/-! ## A canonical memory is its reads (log 3) -/

/-- In rising order the first cell at an address is the only one, so a listed cell is read. -/
theorem Memory.get_of_mem {m : Memory} (hr : m.Pairwise (fun c d => c.1 < d.1)) {c : Host.Cell} (hc : c ∈ m) :
    m.get c.1 = c.2 := by
  induction m with
  | nil => cases hc
  | cons d m ih =>
    obtain ⟨hd, hr'⟩ := List.pairwise_cons.1 hr
    rw [Memory.get_cons]
    rcases List.mem_cons.1 hc with rfl | hc
    · exact if_pos rfl
    · rw [if_neg (hd c hc).ne', ih hr' hc]

/-- The cells of a canonical memory are exactly its reads that differ from the reset content. -/
theorem Memory.mem_iff_get {m : Memory} (h : m.wf) (c : Host.Cell) :
    c ∈ m ↔ m.get c.1 = c.2 ∧ c.2 ≠ Memory.unlisted c.1 := by
  obtain ⟨hr, hcells⟩ := h
  constructor
  · exact fun hc => ⟨Memory.get_of_mem hr hc, (hcells c hc).2⟩
  · rintro ⟨hget, hne⟩
    obtain ⟨d, hd, hdc⟩ : ∃ d ∈ m, d.1 = c.1 := by
      by_contra hno
      exact hne (hget.symm.trans (Memory.get_of_not_listed fun d hd e => hno ⟨d, hd, e⟩))
    have hval : d.2 = c.2 := by rw [← Memory.get_of_mem hr hd, hdc, hget]
    exact Prod.ext hdc hval ▸ hd

/-- Settles O50: canonical memories with the same reads list the same cells, and both in rising order. -/
theorem canonicalMemoriesAreTheirReads : Obligations.CanonicalMemoriesAreTheirReads := by
  intro m n hm hn hget
  have hcells (c : Host.Cell) : c ∈ m ↔ c ∈ n := by
    rw [Memory.mem_iff_get hm, Memory.mem_iff_get hn, hget]
  have : Std.Irrefl fun c d : Host.Cell => c.1 < d.1 := ⟨fun c => Nat.lt_irrefl c.1⟩
  have : Std.Antisymm fun c d : Host.Cell => c.1 < d.1 := ⟨fun _ _ h h' => absurd h h'.asymm⟩
  exact hm.1.eq_of_mem_iff hn.1 hcells

/-! ## A step from its two byte reads (45 R191, 20_memory R64) -/

/-- A step executes the word its two byte reads answer, from the state they leave. -/
theorem step_of_memRead {s t u : State} {msb lsb : Byte} (hmsb : s.memRead s.pc = (msb, t))
    (hlsb : t.memRead (s.pc + 1) = (lsb, u)) : step s = exec (decode (msb ++ lsb)) u.advancePc := by
  simp only [step, State.fetch, hmsb, hlsb]

/-- Settles O7: each byte read lies inside memory or outside it, and only one outside draws a free value. -/
theorem fetchOutsideMemoryReadsFreeBytes : Obligations.FetchOutsideMemoryReadsFreeBytes := by
  intro s
  refine ⟨fun hpc => ?_, fun hlow htop => ?_, fun hpc => ?_⟩
  · have hmsb := s.memRead_inside (a := s.pc) (by rw [hpc]; decide)
    have hlsb := s.memRead_outside (a := s.pc + 1) (by rw [hpc]; decide)
    rw [step_of_memRead hmsb hlsb, State.advancePc, State.setDraws_pc, hpc]
    rfl
  · have hlt : s.pc.toNat ≠ 0xFFFF := fun e => htop (BitVec.eq_of_toNat_eq e)
    have hmsb := s.memRead_outside (a := s.pc) (by omega)
    have hlsb := (s.setDraws (s.draws + 1)).memRead_outside (a := s.pc + 1) (by bv_omega)
    exact step_of_memRead hmsb hlsb
  · have hmsb := s.memRead_outside (a := s.pc) (by rw [hpc]; decide)
    have hlsb := (s.setDraws (s.draws + 1)).memRead_inside (a := s.pc + 1) (by rw [hpc]; decide)
    rw [step_of_memRead hmsb hlsb, State.advancePc, State.setDraws_pc, hpc]
    rfl

/-- With pc in range a step executes the word at pc, and its fetch changes nothing (45 R191, 20_memory R64). -/
theorem step_of_wordAtPc {s : State} {w : OpWord} (hpc : PcInRange s) (hw : WordAtPc s w) :
    step s = exec (decode w) (s.setPc (s.pc + 2)) := by
  obtain ⟨hhi, hlo⟩ := hw
  simp only [step, s.fetch_inside hpc, hhi, hlo, hiByte_append_loByte]
  rfl

/-! ## Code stored by FX55 (20_memory R73) -/

theorem decode_encode_storeRegs (x : Nibble) : decode (encode (.storeRegs x)) = .storeRegs x := by
  simp [encode, decode, decodeFamilyF]

/-- FX55 leaves register `k`'s value at `I + k`, if that is inside memory (42 R164). -/
theorem exec_storeRegs_get {x k : Nibble} {s t : State} (h : exec (.storeRegs x) s = .next t) (hk : k ≤ x)
    (hin : InMemory (s.iPlus k.toNat)) : t.mem.get (s.iPlus k.toNat).toNat = s.reg k := by
  obtain rfl := Host.Outcome.next.inj h
  have hx := x.isLt
  have hkx := BitVec.le_def.1 hk
  have hget := State.storeFrom_get_stored s.iReg s (regCount x) (by unfold regCount; omega) k.toNat
    (by unfold regCount; omega) hin
  rwa [BitVec.ofNat_toNat 4 k, BitVec.setWidth_eq] at hget

theorem State.iPlus_succ (s : State) (i : Nat) : s.iPlus (i + 1) = s.iPlus i + 1 := by
  simp [State.iPlus, BitVec.ofNat_add, BitVec.add_assoc]

/-- Settles O9: the first step stores Vk and V(k+1) at pc + 2 and pc + 3, which is the word the second fetches. -/
theorem storedInstructionRunsAtTheNextStep : Obligations.StoredInstructionRunsAtTheNextStep := by
  intro x k s hpc hw hk hI
  have hmem : s.pc.toNat + 4 ≤ 4096 := hpc
  have hI' : s.iPlus (k + 1).toNat = s.pc + 2 + 1 := by
    rw [show (k + 1).toNat = k.toNat + 1 by bv_omega, State.iPlus_succ, hI]
  have hin : InMemory (s.iPlus k.toNat) := by rw [hI, InMemory, Config.memSize_eq]; bv_omega
  have hin' : InMemory (s.iPlus (k + 1).toNat) := by rw [hI', InMemory, Config.memSize_eq]; bv_omega
  have hstep : step s = exec (.storeRegs x) (s.setPc (s.pc + 2)) := by
    rw [step_of_wordAtPc (by omega) hw, decode_encode_storeRegs]
  obtain ⟨t, ht⟩ : ∃ t, exec (.storeRegs x) (s.setPc (s.pc + 2)) = .next t := ⟨_, rfl⟩
  have htpc : t.pc = s.pc + 2 := exec_sameBut ht .pc (by simp [mayChange])
  have hmsb : t.mem.get (s.iPlus k.toNat).toNat = s.reg k :=
    exec_storeRegs_get (s := s.setPc (s.pc + 2)) ht (by bv_omega) hin
  have hlsb : t.mem.get (s.iPlus (k + 1).toNat).toNat = s.reg (k + 1) :=
    exec_storeRegs_get (s := s.setPc (s.pc + 2)) ht (by bv_omega) hin'
  have hword : WordAtPc t (s.reg k ++ s.reg (k + 1)) := by
    rw [WordAtPc, hiByte_append, loByte_append, htpc, ← hI', ← hI]
    exact ⟨hmsb, hlsb⟩
  refine ⟨t, hstep.trans ht, htpc, ?_⟩
  rw [step_of_wordAtPc (by bv_omega) hword, htpc, BitVec.add_assoc]
  rfl

end Sys2Proof.Machine

namespace Sys2Proof

/-! ## Encoding what was decoded (30_encoding R93, R95)

Each family keeps the fields of the word in its instruction's operands, so its format puts the same word together. -/

section
variable {w : OpWord} {f : Nibble}

theorem formatNNN_of_opF (hf : opF w = f) : f ++ opNNN w = w :=
  hf ▸ word_eq_formatNNN w

theorem formatXNN_of_opF (hf : opF w = f) : f ++ opX w ++ opNN w = w :=
  hf ▸ word_eq_formatXNN w

theorem formatXYN_of_opF (hf : opF w = f) : f ++ opX w ++ opY w ++ opN w = w :=
  hf ▸ word_eq_formatXYN w

theorem formatXYN_of_opF_opN {n : Nibble} (hf : opF w = f) (hn : opN w = n) : f ++ opX w ++ opY w ++ n = w :=
  hn ▸ formatXYN_of_opF hf

theorem formatXKK_of_opF_opNN {kk : Byte} (hf : opF w = f) (hkk : opNN w = kk) : f ++ opX w ++ kk = w :=
  hkk ▸ formatXNN_of_opF hf

end

theorem encode_decodeFamily0 (w : OpWord) : encode (decodeFamily0 w) = w := by
  unfold decodeFamily0
  split_ifs with hcls hret
  · exact hcls.symm
  · exact hret.symm
  · rfl

theorem encode_decodeFamily8 {w : OpWord} (hf : opF w = 0x8) : encode (decodeFamily8 w) = w := by
  unfold decodeFamily8
  split
  case h_10 => rfl
  all_goals exact formatXYN_of_opF_opN hf ‹_›

theorem encode_decodeFamilyE {w : OpWord} (hf : opF w = 0xE) : encode (decodeFamilyE w) = w := by
  unfold decodeFamilyE
  split
  case h_3 => rfl
  all_goals exact formatXKK_of_opF_opNN hf ‹_›

theorem encode_decodeFamilyF {w : OpWord} (hf : opF w = 0xF) : encode (decodeFamilyF w) = w := by
  unfold decodeFamilyF
  split
  case h_10 => rfl
  all_goals exact formatXKK_of_opF_opNN hf ‹_›

theorem encode_decode (w : OpWord) : encode (decode w) = w := by
  unfold decode
  split
  case h_1 => exact encode_decodeFamily0 w
  case h_9 h => exact encode_decodeFamily8 h
  case h_15 h => exact encode_decodeFamilyE h
  case h_16 => exact encode_decodeFamilyF (by simp only [imp_false] at *; bv_omega)
  case h_2 h | h_3 h | h_11 h | h_12 h => exact formatNNN_of_opF h
  case h_4 h | h_5 h | h_7 h | h_8 h | h_13 h => exact formatXNN_of_opF h
  case h_6 h | h_10 h | h_14 h => exact formatXYN_of_opF h

/-! ## The undefined words (30_encoding R98) -/

theorem undefinedWord_iff (w : OpWord) : undefinedWord w = true ↔
    (opF w = 0x0 ∧ w ≠ 0x00E0 ∧ w ≠ 0x00EE) ∨
    (opF w = 0x8 ∧ opN w ∈ ([0x8, 0x9, 0xA, 0xB, 0xC, 0xD, 0xF] : List Nibble)) ∨
    (opF w = 0xE ∧ opNN w ∉ ([0x9E, 0xA1] : List Byte)) ∨
    (opF w = 0xF ∧ opNN w ∉ ([0x07, 0x0A, 0x15, 0x18, 0x1E, 0x29, 0x33, 0x55, 0x65] : List Byte)) := by
  unfold undefinedWord opF opN opNN
  dsimp only
  split_ifs with h0 h8 hE hF
  · simp [h0]
  · simp [h8]
  · simp [hE]
  · simp [hF]
  · simp_all

theorem decodeFamily0_eq_undef_iff (w : OpWord) :
    decodeFamily0 w = .undef w ↔ w ≠ 0x00E0 ∧ w ≠ 0x00EE := by
  unfold decodeFamily0
  split_ifs <;> simp_all

theorem decodeFamily8_eq_undef_iff (w : OpWord) :
    decodeFamily8 w = .undef w ↔ opN w ∈ ([0x8, 0x9, 0xA, 0xB, 0xC, 0xD, 0xF] : List Nibble) := by
  unfold decodeFamily8
  split
  case h_10 =>
    simp only [List.mem_cons, List.not_mem_nil, or_false, imp_false, true_iff] at *
    bv_omega
  all_goals simp [*]

theorem decodeFamilyE_eq_undef_iff (w : OpWord) :
    decodeFamilyE w = .undef w ↔ opNN w ∉ ([0x9E, 0xA1] : List Byte) := by
  unfold decodeFamilyE
  split <;> simp_all

theorem decodeFamilyF_eq_undef_iff (w : OpWord) : decodeFamilyF w = .undef w ↔
    opNN w ∉ ([0x07, 0x0A, 0x15, 0x18, 0x1E, 0x29, 0x33, 0x55, 0x65] : List Byte) := by
  unfold decodeFamilyF
  split <;> simp_all

theorem decode_eq_undef_iff (w : OpWord) : decode w = .undef w ↔ undefinedWord w = true := by
  rw [undefinedWord_iff]
  unfold decode
  split
  case h_1 h => simp [h, decodeFamily0_eq_undef_iff]
  case h_9 h => simp [h, decodeFamily8_eq_undef_iff]
  case h_15 h => simp [h, decodeFamilyE_eq_undef_iff]
  case h_16 =>
    have hF : opF w = 0xF := by simp only [imp_false] at *; bv_omega
    simp [hF, decodeFamilyF_eq_undef_iff]
  all_goals simp [*]

/-- The word an undefined instruction carries is the decoded one, so it is in R98's table. -/
theorem wellFormed_decode (w : OpWord) : WellFormed (decode w) = true := by
  cases h : decode w with
  | undef v =>
    obtain rfl : v = w := by simpa only [h, encode] using encode_decode w
    exact (decode_eq_undef_iff v).1 h
  | _ => rfl

/-- Settles O1: decoding reads back the fields that each format puts in the word, and an undefined word is one
that no family decodes. -/
theorem decodeOfEncodeIsTheInstruction : Obligations.DecodeOfEncodeIsTheInstruction := by
  intro i hi
  cases i with
  | undef w => exact (decode_eq_undef_iff w).2 hi
  | cls | ret => rfl
  | ldReg | orReg | andReg | xorReg | addReg | subReg | shr | subn | shl => simp [encode, decode, decodeFamily8]
  | skp | sknp => simp [encode, decode, decodeFamilyE]
  | ldVxDt | ldVxK | ldDtVx | ldStVx | addI | ldF | ldB | storeRegs | loadRegs =>
    simp [encode, decode, decodeFamilyF]
  | _ => simp [encode, decode]

/-- Settles O2: every family's format puts the decoded word together again. -/
theorem encodeOfDecodeIsTheWord : Obligations.EncodeOfDecodeIsTheWord :=
  fun w => ⟨wellFormed_decode w, encode_decode w⟩

/-! ### The fields as numbers -/

theorem opF_toNat (w : OpWord) : (opF w).toNat = w.toNat / 0x1000 := by
  rw [opF, BitVec.extractLsb'_toNat, Nat.shiftRight_eq_div_pow]
  omega

theorem opN_toNat (w : OpWord) : (opN w).toNat = w.toNat % 0x10 := by
  simp [opN]

theorem opNN_toNat (w : OpWord) : (opNN w).toNat = w.toNat % 0x100 := by
  simp [opNN]

/-- Settles O5: the fields of `undefinedWord_iff`, read as numbers. -/
theorem undefinedWordsAreExactlyTheListed : Obligations.UndefinedWordsAreExactlyTheListed := by
  intro w
  rw [decode_eq_undef_iff, undefinedWord_iff]
  simp [← BitVec.toNat_inj, opF_toNat, opN_toNat, opNN_toNat]

/-- Settles O4: each of the words, decoded by evaluation. -/
theorem sampleWordsDecodeAsTheManualSays : Obligations.SampleWordsDecodeAsTheManualSays := by
  unfold Obligations.SampleWordsDecodeAsTheManualSays
  decide

/-! ## The opcode map (30_encoding R96)

A word that fits a row agrees with the row's value in every field its family dispatches on, so both decode to the
same mnemonic. -/

theorem opF_and (v w : OpWord) : opF (v &&& w) = opF v &&& opF w := BitVec.extractLsb'_and

theorem opN_and (v w : OpWord) : opN (v &&& w) = opN v &&& opN w := BitVec.extractLsb'_and

theorem opNN_and (v w : OpWord) : opNN (v &&& w) = opNN v &&& opNN w := BitVec.extractLsb'_and

theorem mnemonic_decodeFamily8_congr {v w : OpWord} (hN : opN v = opN w) :
    (decodeFamily8 v).mnemonic = (decodeFamily8 w).mnemonic := by
  unfold decodeFamily8
  rw [hN]
  split <;> rfl

theorem mnemonic_decodeFamilyE_congr {v w : OpWord} (hNN : opNN v = opNN w) :
    (decodeFamilyE v).mnemonic = (decodeFamilyE w).mnemonic := by
  unfold decodeFamilyE
  rw [hNN]
  split <;> rfl

theorem mnemonic_decodeFamilyF_congr {v w : OpWord} (hNN : opNN v = opNN w) :
    (decodeFamilyF v).mnemonic = (decodeFamilyF w).mnemonic := by
  unfold decodeFamilyF
  rw [hNN]
  split <;> rfl

/-- Outside family 0 the mnemonic depends on `F` alone, in family 8 also on `N`, in families E and F also on `NN`. -/
theorem mnemonic_decode_congr {v w : OpWord} (hF : opF v = opF w) (h0 : opF w ≠ 0x0)
    (hN : opF w = 0x8 → opN v = opN w) (hNN : opF w = 0xE ∨ opF w = 0xF → opNN v = opNN w) :
    (decode v).mnemonic = (decode w).mnemonic := by
  unfold decode
  rw [hF]
  split
  case h_1 h => exact absurd h h0
  case h_9 h => exact mnemonic_decodeFamily8_congr (hN h)
  case h_15 h => exact mnemonic_decodeFamilyE_congr (hNN (.inl h))
  case h_16 => exact mnemonic_decodeFamilyF_congr (hNN (.inr (by simp only [imp_false] at *; bv_omega)))
  all_goals rfl

/-- A row's mask keeps the fields its family dispatches on: in family 0 the whole word. -/
theorem opcodeMap_mask : ∀ row ∈ opcodeMap, row.mask = 0xFFFF ∨
    (opF row.value ≠ 0x0 ∧ opF row.mask = 0xF ∧ (opF row.value = 0x8 → opN row.mask = 0xF) ∧
      (opF row.value = 0xE ∨ opF row.value = 0xF → opNN row.mask = 0xFF)) := by decide

theorem mnemonic_decode_value : ∀ row ∈ opcodeMap, (decode row.value).mnemonic = row.mnemonic := by decide

theorem mnemonic_ne_UNDEF : ∀ row ∈ opcodeMap, row.mnemonic ≠ "UNDEF" := by decide

theorem mnemonic_decode_of_fits {row : OpcodeRow} (hrow : row ∈ opcodeMap) {w : OpWord}
    (hfits : w &&& row.mask = row.value) : (decode w).mnemonic = row.mnemonic := by
  rw [← mnemonic_decode_value row hrow]
  rcases opcodeMap_mask row hrow with hm | ⟨h0, hmF, hmN, hmNN⟩
  · rw [← hfits, hm, show w &&& 0xFFFF = w from BitVec.and_allOnes]
  · refine mnemonic_decode_congr ?_ h0 (fun h8 => ?_) (fun hEF => ?_)
    · rw [← hfits, opF_and, hmF]
      exact BitVec.and_allOnes.symm
    · rw [← hfits, opN_and, hmN h8]
      exact BitVec.and_allOnes.symm
    · rw [← hfits, opNN_and, hmNN hEF]
      exact BitVec.and_allOnes.symm

open Laws.EncodesItsRow in
theorem encodesItsRow : ∀ i : Instr, Statement i
  | .cls => cls | .ret => ret | .jp _ => jp _ | .call _ => call _
  | .seImm _ _ => seImm _ _ | .sneImm _ _ => sneImm _ _ | .seReg _ _ _ => seReg _ _ _
  | .ldImm _ _ => ldImm _ _ | .addImm _ _ => addImm _ _ | .ldReg _ _ => ldReg _ _
  | .orReg _ _ => orReg _ _ | .andReg _ _ => andReg _ _ | .xorReg _ _ => xorReg _ _
  | .addReg _ _ => addReg _ _ | .subReg _ _ => subReg _ _ | .shr _ _ => shr _ _
  | .subn _ _ => subn _ _ | .shl _ _ => shl _ _ | .sneReg _ _ _ => sneReg _ _ _
  | .ldI _ => ldI _ | .jpV0 _ => jpV0 _ | .rnd _ _ => rnd _ _ | .drw _ _ _ => drw _ _ _
  | .skp _ => skp _ | .sknp _ => sknp _ | .ldVxDt _ => ldVxDt _ | .ldVxK _ => ldVxK _
  | .ldDtVx _ => ldDtVx _ | .ldStVx _ => ldStVx _ | .addI _ => addI _ | .ldF _ => ldF _
  | .ldB _ => ldB _ | .storeRegs _ => storeRegs _ | .loadRegs _ => loadRegs _ | .undef _ => undef _

theorem fits_of_mnemonic_decode {row : OpcodeRow} (hrow : row ∈ opcodeMap) {w : OpWord}
    (h : (decode w).mnemonic = row.mnemonic) : w &&& row.mask = row.value := by
  have hfits := encodesItsRow (decode w) row hrow h.symm
  rwa [encode_decode, OpcodeRow.fits, beq_iff_eq] at hfits

theorem exists_row_of_mnemonic_ne_UNDEF {i : Instr} (h : i.mnemonic ≠ "UNDEF") :
    ∃ row ∈ opcodeMap, row.mnemonic = i.mnemonic := by
  apply List.mem_map.1
  cases i with
  | undef => exact absurd rfl h
  | _ => rw [Instr.mnemonic]; decide

/-- Settles O3: a word fits exactly the row of its instruction's mnemonic, and UNDEF alone has no row. -/
theorem decodeFollowsTheOpcodeMap : Obligations.DecodeFollowsTheOpcodeMap := by
  refine fun w => ⟨fun row hrow => ⟨mnemonic_decode_of_fits hrow, fits_of_mnemonic_decode hrow⟩,
    fun hundef row hrow hfits => ?_, fun hnone => ?_⟩
  · exact mnemonic_ne_UNDEF row hrow ((mnemonic_decode_of_fits hrow hfits).symm.trans hundef)
  · by_contra hne
    obtain ⟨row, hrow, hm⟩ := exists_row_of_mnemonic_ne_UNDEF hne
    exact hnone row hrow (fits_of_mnemonic_decode hrow hm.symm)

end Sys2Proof

namespace Sys2Proof.Machine

/-! ## Control transfer (40_flow R121 to R128) -/

theorem State.setPc_sameBut (s : State) (v : Addr) : SameBut (fun p => p = .pc) s (s.setPc v) :=
  (SameBut.refl (fun p => p = .pc) s).setPc rfl v

/-- Settles O10: the format gives the jump back, and the jump writes pc alone. -/
theorem jumpSetsPcAlone : Obligations.JumpSetsPcAlone := fun nnn s =>
  ⟨decodeOfEncodeIsTheInstruction (.jp nnn) rfl, _, rfl, zextImm12_toNat nnn, s.setPc_sameBut _⟩

/-- Settles O11: the sum of a 12-bit and an 8-bit value fits 16 bits. -/
theorem jumpWithOffsetIsTheExactSum : Obligations.JumpWithOffsetIsTheExactSum := fun nnn s =>
  ⟨_, rfl, zextImm12_add_zextByte_toNat nnn (s.reg 0), s.setPc_sameBut _⟩

/-! ### Compare and skip (40_flow R124 to R127) -/

/-- A skip on equality and one on inequality, for any two operands. -/
theorem State.skipIf_beq_bne (s : State) (a b : Byte) :
    ((s.skipIf (a == b)).pc = (if a = b then s.pc + 2 else s.pc) ∧
      SameBut (fun p => p = .pc) s (s.skipIf (a == b))) ∧
    ((s.skipIf (a != b)).pc = (if a ≠ b then s.pc + 2 else s.pc) ∧
      SameBut (fun p => p = .pc) s (s.skipIf (a != b))) := by
  have hframe (c : Bool) : SameBut (fun p => p = .pc) s (s.skipIf c) :=
    s.skipIf_eq c ▸ s.setPc_sameBut _
  refine ⟨⟨?_, hframe _⟩, ?_, hframe _⟩
  · simp [State.skipIf_pc]
  · simp [State.skipIf_pc]

/-- Settles O15: the two formats give the skips back, which compare VX with NN. -/
theorem skipComparesWithImmediate : Obligations.SkipComparesWithImmediate := by
  intro x nn s
  obtain ⟨heq, hne⟩ := s.skipIf_beq_bne (s.reg x) nn
  exact ⟨decodeOfEncodeIsTheInstruction (.seImm x nn) rfl, decodeOfEncodeIsTheInstruction (.sneImm x nn) rfl,
    ⟨_, rfl, heq⟩, _, rfl, hne⟩

/-- Settles O16: the two skips compare VX with VY and do not look at the low nibble. -/
theorem skipComparesRegisters : Obligations.SkipComparesRegisters := by
  intro x y n s
  obtain ⟨heq, hne⟩ := s.skipIf_beq_bne (s.reg x) (s.reg y)
  exact ⟨⟨_, rfl, heq⟩, _, rfl, hne⟩

/-! ### Undefined words (40_flow R128) -/

/-- Settles O18: a word in R98's table decodes to UNDEF, whose handler is the identity. -/
theorem undefinedWordOnlyAdvancesPc : Obligations.UndefinedWordOnlyAdvancesPc := by
  intro w s
  refine ⟨⟨s, rfl, rfl⟩, fun hundef hpc hw => ?_⟩
  rw [step_of_wordAtPc hpc hw, (decode_eq_undef_iff w).2 hundef]
  rfl

/-! ### Call and return (40_flow R120, R122) -/

/-- A write outside memory is dropped (20_memory R63). -/
theorem State.memWrite_outside (s : State) {a : Addr} (h : ¬ InMemory a) (v : Byte) : s.memWrite a v = s := by
  rw [State.memWrite, Memory.put, if_neg h, State.setMem_self]

/-- The frame rule of MemWrite that knows a write outside memory is dropped. -/
theorem SameBut.memWrite_of_inMemory {C : Part → Prop} {s t : State} (h : SameBut C s t) {a : Addr}
    (ha : InMemory a → C (.byte a.toNat)) (v : Byte) : SameBut C s (t.memWrite a v) := by
  by_cases hin : InMemory a
  · exact h.memWrite (ha hin) v
  · rwa [t.memWrite_outside hin]

/-- Settles O12: Push16 writes two different addresses, so the low byte does not overwrite the high one. -/
theorem callPushesTheAdvancedPc : Obligations.CallPushesTheAdvancedPc := by
  intro nnn s
  refine ⟨(s.push16 s.pc).setPc (zextImm12 nnn), rfl, zextImm12_toNat nnn, ?_⟩
  rw [State.push16_eq]
  refine ⟨rfl, fun hhi => ?_, fun hlo => ?_, ?_⟩
  · have hne : s.sp.toNat ≠ (s.sp - 1).toNat := by bv_omega
    rw [State.setPc_mem, State.setSp_mem, State.memWrite_get, if_neg (fun h => hne h.1), State.memWrite_get,
      if_pos ⟨rfl, hhi⟩]
  · rw [State.setPc_mem, State.setSp_mem, State.memWrite_get, if_pos ⟨rfl, hlo⟩]
  · refine SameBut.setPc (.setSp (.memWrite_of_inMemory (.memWrite_of_inMemory (.refl _ s) ?_ _) ?_ _) ?_ _) ?_ _
    · exact fun h => .inr (.inr (.inl ⟨h, rfl⟩))
    · exact fun h => .inr (.inr (.inr ⟨h, rfl⟩))
    · exact .inr (.inl rfl)
    · exact .inl rfl

/-- Settles O13: Pop16's two reads, which count no free value when both lie inside memory. -/
theorem returnPopsPc : Obligations.ReturnPopsPc := by
  intro s
  obtain ⟨lo, hi, n, hpop, hlo, hhi⟩ := s.pop16_cases
  refine ⟨s.pop16.2.setPc s.pop16.1, lo, hi, rfl, ?_, ?_, hlo, hhi, fun h1 h2 => ?_, ?_⟩
  · rw [State.setPc_pc, hpop]
  · rw [State.setPc_sp, hpop, State.setDraws_sp, State.setSp_sp]
  · rw [State.setPc_draws, s.pop16_inside h1 h2, State.setSp_draws]
  · exact exec_sameBut (i := .ret) rfl

/-- A step on a call at pc stores the address after it, and changes pc, sp and the two stack bytes alone. -/
theorem step_call {s : State} {nnn : Imm12} (hpc : PcInRange s) (hw : WordAtPc s (encode (.call nnn)))
    (hhi : InMemory s.sp) (hlo : InMemory (s.sp - 1)) :
    ∃ t, step s = .next t ∧ t.pc.toNat = nnn.toNat ∧ t.sp = s.sp - 2 ∧
      t.mem.get s.sp.toNat = hiByte (s.pc + 2) ∧ t.mem.get (s.sp - 1).toNat = loByte (s.pc + 2) ∧
      SameBut (fun p => p = .pc ∨ p = .sp ∨ p = .byte s.sp.toNat ∨ p = .byte (s.sp - 1).toNat) s t := by
  have hstep := step_of_wordAtPc hpc hw
  rw [decodeOfEncodeIsTheInstruction (.call nnn) rfl] at hstep
  obtain ⟨t, ht, htpc, htsp, hthi, htlo, -⟩ := callPushesTheAdvancedPc nnn (s.setPc (s.pc + 2))
  refine ⟨t, hstep.trans ht, htpc, htsp, hthi hhi, htlo hlo, ?_⟩
  exact ((SameBut.refl _ s).setPc (.inl rfl) _).trans (exec_sameBut ht)

/-- A step on a return at pc with both stack bytes inside memory jumps to the address they hold, and changes pc and
sp alone. -/
theorem step_ret {s : State} (hpc : PcInRange s) (hw : WordAtPc s (encode .ret))
    (hlo : InMemory (s.sp + 1)) (hhi : InMemory (s.sp + 2)) :
    ∃ t, step s = .next t ∧ t.pc = s.mem.get (s.sp + 2).toNat ++ s.mem.get (s.sp + 1).toNat ∧
      t.sp = s.sp + 2 ∧ SameBut (fun p => p = .pc ∨ p = .sp) s t := by
  have hstep := step_of_wordAtPc hpc hw
  rw [decodeOfEncodeIsTheInstruction .ret rfl] at hstep
  have hpop := State.pop16_inside (s.setPc (s.pc + 2)) hlo hhi
  refine ⟨_, hstep, ?_⟩
  rw [hpop]
  refine ⟨rfl, rfl, ?_⟩
  exact (((SameBut.refl _ s).setPc (.inl rfl) _).setSp (.inr rfl) _).setPc (.inl rfl) _

/-- Settles O14: the return pops the two bytes the call pushed, so pc and sp come back. -/
theorem callThenReturnComesBack : Obligations.CallThenReturnComesBack := by
  intro s nnn hpc hw hnnn hmsb hlsb hhi hlo hclear
  obtain ⟨t, hst, htpc, htsp, hthi, htlo, hframe⟩ := step_call hpc hw hhi hlo
  have hsp1 : t.sp + 1 = s.sp - 1 := by rw [htsp]; bv_omega
  have hsp2 : t.sp + 2 = s.sp := by rw [htsp]; bv_omega
  have hpc1 : (t.pc + 1).toNat = nnn.toNat + 1 := by bv_omega
  have htpcIn : PcInRange t := by rwa [PcInRange, htpc]
  have hcode (a : Nat) (ha : a = nnn.toNat ∨ a = nnn.toNat + 1) : t.mem.get a = s.mem.get a := by
    have hhigh := hclear s.sp.toNat (by simp)
    have hlow := hclear (s.sp - 1).toNat (by simp)
    exact hframe (.byte a) (by simp only [reduceCtorEq, Part.byte.injEq, false_or]; omega)
  have hret : WordAtPc t (encode .ret) := by
    rw [WordAtPc, htpc, hpc1, hcode _ (.inl rfl), hcode _ (.inr rfl), hmsb, hlsb]
    decide
  obtain ⟨u, htu, hupc, husp, huframe⟩ := step_ret htpcIn hret (by rwa [hsp1]) (by rwa [hsp2])
  rw [hsp1, hsp2, hthi, htlo, hiByte_append_loByte] at hupc
  rw [hsp2] at husp
  refine ⟨t, u, hst, htu, hupc, fun p hp => ?_⟩
  by_cases hsp : p = .sp
  · subst hsp
    exact husp
  · have hall : SameBut (fun p => p = .pc ∨ p = .sp ∨ p = .byte s.sp.toNat ∨ p = .byte (s.sp - 1).toNat) s u :=
      hframe.trans fun q hq => huframe q (by tauto)
    exact hall p (by tauto)

end Sys2Proof.Machine

namespace Sys2Proof.Machine

/-! ## Register load, arithmetic, logic and shifts (41_alu)

Every handler of this family is one `setReg` or one `writeFlagged`, so what each of the two leaves is said once. -/

/-- The handlers without a flag (41 R140 to R142). -/
theorem State.setReg_outcome (s : State) (x : Nibble) (v : Byte) :
    (s.setReg x v).reg x = v ∧ SameBut (fun p => p = .reg x) s (s.setReg x v) :=
  ⟨(s.reg_setReg x x v).trans (if_pos rfl), (SameBut.refl (fun p => p = .reg x) s).setReg rfl v⟩

/-- The handlers with a flag (41 R152): VF is written last, so the result stays only where `x` is not VF. -/
theorem State.writeFlagged_outcome (s : State) (x : Nibble) (v : Byte) (c : Bool) :
    (s.writeFlagged x v c).reg 0xF = flagByte c ∧
    (x ≠ 0xF → (s.writeFlagged x v c).reg x = v) ∧
    SameBut (fun p => p = .reg x ∨ p = .reg 0xF) s (s.writeFlagged x v c) := by
  refine ⟨?_, fun hx => ?_, (SameBut.refl _ s).writeFlagged (.inl rfl) (.inr rfl) v c⟩
  · exact (s.writeFlagged_reg x v c 0xF).trans (if_pos rfl)
  · exact (s.writeFlagged_reg x v c x).trans ((if_neg hx).trans (if_pos rfl))

/-! ### The flags as numbers (10_state R23) -/

theorem flagByte_toNat (c : Bool) : (flagByte c).toNat = c.toNat := by
  cases c <;> rfl

/-- The reduced sum is below an operand exactly when the exact sum does not fit a byte (41 R146). -/
theorem flagByte_carryFlag (a b : Byte) :
    flagByte (carryFlag a b) = if a.toNat + b.toNat > 255 then 1 else 0 := by
  have hcarry : (a + b).toNat < a.toNat ↔ a.toNat + b.toNat > 255 := by
    have := a.isLt
    have := b.isLt
    rw [BitVec.toNat_add]
    omega
  simp only [flagByte, carryFlag, hcarry, decide_eq_true_eq]

theorem flagByte_noBorrowFlag (a b : Byte) :
    flagByte (noBorrowFlag a b) = if a.toNat ≥ b.toNat then 1 else 0 := by
  simp only [flagByte, noBorrowFlag, decide_eq_true_eq, ge_iff_le]

/-- The bit a shift right by one moves out (41 R148). -/
theorem flagByte_lowBitFlag_toNat (b : Byte) : (flagByte (lowBitFlag b)).toNat = b.toNat % 2 := by
  rw [flagByte_toNat, lowBitFlag, BitVec.getLsbD, Nat.toNat_testBit, pow_zero, Nat.div_one]

/-- The bit a shift left by one moves out (41 R150). -/
theorem flagByte_highBitFlag_toNat (b : Byte) : (flagByte (highBitFlag b)).toNat = b.toNat / 128 := by
  have := b.isLt
  rw [flagByte_toNat, highBitFlag, BitVec.getLsbD, Nat.toNat_testBit]
  omega

/-! ### The five statements -/

/-- Settles O19: the three formats give the instructions back, and each writes its destination alone. -/
theorem loadAddImmediateAndCopy : Obligations.LoadAddImmediateAndCopy := by
  intro x y nn s
  obtain ⟨hadd, hframe⟩ := s.setReg_outcome x (s.reg x + nn)
  refine ⟨decodeOfEncodeIsTheInstruction (.ldImm x nn) rfl, decodeOfEncodeIsTheInstruction (.addImm x nn) rfl,
    decodeOfEncodeIsTheInstruction (.ldReg x y) rfl, ⟨_, rfl, s.setReg_outcome x nn⟩, ⟨_, rfl, ?_, hframe⟩,
    _, rfl, s.setReg_outcome x (s.reg y)⟩
  rw [hadd, BitVec.toNat_add]

/-- A logic handler, for any operation given by its bits. -/
theorem State.writeFlagged_logic (s : State) (x : Nibble) {v : Byte} {bit : Nat → Bool}
    (hbit : ∀ b, v.getLsbD b = bit b) :
    (s.writeFlagged x v false).reg 0xF = 0 ∧
    (x ≠ 0xF → ∀ b, ((s.writeFlagged x v false).reg x).getLsbD b = bit b) ∧
    SameBut (fun p => p = .reg x ∨ p = .reg 0xF) s (s.writeFlagged x v false) := by
  obtain ⟨hflag, hres, hframe⟩ := s.writeFlagged_outcome x v false
  exact ⟨hflag, fun hx b => by rw [hres hx, hbit], hframe⟩

/-- Settles O20: or, and, xor act bit by bit and share the flagged write with flag 0. -/
theorem logicClearsTheFlag : Obligations.LogicClearsTheFlag := fun x _ s =>
  ⟨⟨_, rfl, s.writeFlagged_logic x fun _ => BitVec.getLsbD_or⟩,
    ⟨_, rfl, s.writeFlagged_logic x fun _ => BitVec.getLsbD_and⟩,
    _, rfl, s.writeFlagged_logic x fun _ => BitVec.getLsbD_xor⟩

/-- Settles O21: the flag of the handler is the carry of the exact sum. -/
theorem addSetsTheCarry : Obligations.AddSetsTheCarry := by
  intro x y s
  obtain ⟨hflag, hres, hframe⟩ := s.writeFlagged_outcome x (s.reg x + s.reg y) (carryFlag (s.reg x) (s.reg y))
  refine ⟨_, rfl, ?_, fun hx => ?_, hframe⟩
  · rw [hflag, flagByte_carryFlag]
  · rw [hres hx, BitVec.toNat_add]

/-- A subtraction, for any minuend and subtrahend: 8XY5 and 8XY7 differ in their order alone. -/
theorem State.writeFlagged_sub (s : State) (x : Nibble) (a b : Byte) :
    (s.writeFlagged x (a - b) (noBorrowFlag a b)).reg 0xF = (if a.toNat ≥ b.toNat then 1 else 0) ∧
    (x ≠ 0xF → ((s.writeFlagged x (a - b) (noBorrowFlag a b)).reg x).toNat = (a.toNat + 256 - b.toNat) % 256) ∧
    SameBut (fun p => p = .reg x ∨ p = .reg 0xF) s (s.writeFlagged x (a - b) (noBorrowFlag a b)) := by
  obtain ⟨hflag, hres, hframe⟩ := s.writeFlagged_outcome x (a - b) (noBorrowFlag a b)
  refine ⟨by rw [hflag, flagByte_noBorrowFlag], fun hx => ?_, hframe⟩
  have := b.isLt
  rw [hres hx, BitVec.toNat_sub]
  omega

/-- Settles O22: one subtraction with the operands in both orders. -/
theorem subtractSetsNotBorrow : Obligations.SubtractSetsNotBorrow := fun x y s =>
  ⟨⟨_, rfl, s.writeFlagged_sub x (s.reg x) (s.reg y)⟩, _, rfl, s.writeFlagged_sub x (s.reg y) (s.reg x)⟩

/-- Settles O23: a shift by one halves or doubles VY, and the flag is the bit that leaves the byte. -/
theorem shiftsMoveVyByOne : Obligations.ShiftsMoveVyByOne := by
  intro x y s
  obtain ⟨hlow, hhalf, hframeR⟩ := s.writeFlagged_outcome x (s.reg y >>> 1) (lowBitFlag (s.reg y))
  obtain ⟨hhigh, hdouble, hframeL⟩ := s.writeFlagged_outcome x (s.reg y <<< 1) (highBitFlag (s.reg y))
  refine ⟨⟨_, rfl, ?_, fun hx => ?_, hframeR⟩, _, rfl, ?_, fun hx => ?_, hframeL⟩
  · rw [hlow, flagByte_lowBitFlag_toNat]
  · rw [hhalf hx, BitVec.toNat_ushiftRight, Nat.shiftRight_one]
  · rw [hhigh, flagByte_highBitFlag_toNat]
  · rw [hdouble hx, BitVec.toNat_shiftLeft, Nat.shiftLeft_eq, pow_one]

end Sys2Proof.Machine

namespace Sys2Proof.Machine

/-! ## The address register (42 R160 to R162, R166) -/

theorem State.setI_sameBut (s : State) (v : Addr) : SameBut (fun p => p = .addrReg) s (s.setI v) :=
  (SameBut.refl (fun p => p = .addrReg) s).setI rfl v

/-- Settles O24: the format gives the load back, and the load writes I alone. -/
theorem loadAddressRegister : Obligations.LoadAddressRegister := fun nnn s =>
  ⟨decodeOfEncodeIsTheInstruction (.ldI nnn) rfl, _, rfl, zextImm12_toNat nnn, s.setI_sameBut _⟩

/-- Settles O25: the sum is one of 16 bits, and the handler writes I alone. -/
theorem addToAddressRegister : Obligations.AddToAddressRegister := by
  intro x s
  refine ⟨_, rfl, ?_, s.setI_sameBut _⟩
  rw [State.setI_iReg, BitVec.toNat_add, zextByte_toNat]

/-- Five times a byte past the font base does not leave 16 bits (42 R162). -/
theorem fontAddr_toNat (v : Byte) : (fontAddr v).toNat = Config.fontBase.toNat + v.toNat * 5 := by
  have hv := v.isLt
  have hbase : Config.fontBase.toNat = 0 := rfl
  have hfive : (5 : Addr).toNat = 5 := rfl
  rw [fontAddr, BitVec.toNat_add, BitVec.toNat_mul, zextByte_toNat, hbase, hfive]
  omega

/-- Settles O26: the font address is exact, and the handler writes I alone. -/
theorem pointAtTheFontDigit : Obligations.PointAtTheFontDigit := fun x s =>
  ⟨_, rfl, fontAddr_toNat (s.reg x), s.setI_sameBut _⟩

/-- Different offsets below 2^16 address different bytes. -/
theorem State.iPlus_toNat_ne (s : State) {i j : Nat} (hi : i < 65536) (hj : j < 65536) (h : i ≠ j) :
    (s.iPlus i).toNat ≠ (s.iPlus j).toNat :=
  fun e => h (addr_add_toNat_inj hi hj e)

/-- What FX55 and FX65 leave in I (42 R164, R165). -/
theorem State.iPlus_regCount_toNat (s : State) (x : Nibble) :
    (s.iPlus (regCount x)).toNat = (s.iReg.toNat + x.toNat + 1) % 65536 := by
  rw [State.iPlus, regCount, BitVec.toNat_add, BitVec.toNat_ofNat, Nat.add_mod_mod, Nat.add_assoc]

/-! ## Reading a byte back (20_memory R70) -/

/-- A byte just written inside memory is read back. -/
theorem State.memWrite_get_same (s : State) {a : Addr} (h : InMemory a) (v : Byte) :
    (s.memWrite a v).mem.get a.toNat = v :=
  (s.memWrite_get a v a.toNat).trans (if_pos ⟨rfl, h⟩)

theorem State.memWrite_get_other (s : State) {a : Addr} {b : Nat} (h : b ≠ a.toNat) (v : Byte) :
    (s.memWrite a v).mem.get b = s.mem.get b :=
  (s.memWrite_get a v b).trans (if_neg fun e => h e.1)

/-! ## Decimal digits (42 R163) -/

theorem bcdHundreds_toNat (v : Byte) : (bcdHundreds v).toNat = v.toNat / 100 := by
  have := v.isLt
  rw [bcdHundreds, BitVec.toNat_ofNat, Nat.mod_eq_of_lt (by omega)]

theorem bcdTens_toNat (v : Byte) : (bcdTens v).toNat = v.toNat / 10 % 10 := by
  rw [bcdTens, BitVec.toNat_ofNat, Nat.mod_eq_of_lt (by omega)]

theorem bcdOnes_toNat (v : Byte) : (bcdOnes v).toNat = v.toNat % 10 := by
  rw [bcdOnes, BitVec.toNat_ofNat, Nat.mod_eq_of_lt (by omega)]

/-- Settles O27: the three addresses differ, so no digit overwrites another. -/
theorem storeDecimalDigits : Obligations.StoreDecimalDigits := by
  intro x s
  have h01 : (s.iPlus 0).toNat ≠ (s.iPlus 1).toNat := s.iPlus_toNat_ne (by omega) (by omega) (by omega)
  have h02 : (s.iPlus 0).toNat ≠ (s.iPlus 2).toNat := s.iPlus_toNat_ne (by omega) (by omega) (by omega)
  have h12 : (s.iPlus 1).toNat ≠ (s.iPlus 2).toNat := s.iPlus_toNat_ne (by omega) (by omega) (by omega)
  refine ⟨_, (s.reg x).toNat / 100, (s.reg x).toNat / 10 % 10, (s.reg x).toNat % 10, rfl,
    by omega, by omega, by omega, fun hin => ?_, fun hin => ?_, fun hin => ?_, ?_⟩
  · rw [State.memWrite_get_other _ h02, State.memWrite_get_other _ h01, State.memWrite_get_same _ hin,
      bcdHundreds_toNat]
  · rw [State.memWrite_get_other _ h12, State.memWrite_get_same _ hin, bcdTens_toNat]
  · rw [State.memWrite_get_same _ hin, bcdOnes_toNat]
  · refine .memWrite_of_inMemory (.memWrite_of_inMemory (.memWrite_of_inMemory (.refl _ s) ?_ _) ?_ _) ?_ _
    · exact fun hin => ⟨0, by omega, hin, rfl⟩
    · exact fun hin => ⟨1, by omega, hin, rfl⟩
    · exact fun hin => ⟨2, by omega, hin, rfl⟩

/-! ## Block copies (42 R164, R165) -/

/-- The frame rule of a block store that knows a byte outside memory is dropped. -/
theorem SameBut.storeFrom_of_inMemory {C : Part → Prop} {s t : State} (h : SameBut C s t) (base : Addr) {n : Nat}
    (hb : ∀ i < n, InMemory (base + BitVec.ofNat 16 i) → C (.byte (base + BitVec.ofNat 16 i).toNat)) :
    SameBut C s (State.storeFrom base n t) := by
  induction n with
  | zero => exact h
  | succ n ih => exact (ih fun i hi => hb i (by omega)).memWrite_of_inMemory (hb n (by omega)) _

/-- An offset of a block copy is the number of a register up to `x`. -/
theorem exists_nibble_of_lt_regCount {x : Nibble} {i : Nat} (h : i < regCount x) :
    ∃ k : Nibble, k ≤ x ∧ k.toNat = i := by
  refine ⟨BitVec.ofNat 4 i, ofNat_le_of_lt_regCount h, ?_⟩
  have := x.isLt
  rw [regCount] at h
  rw [BitVec.toNat_ofNat, Nat.mod_eq_of_lt (by omega)]

/-- Settles O28: the block store leaves each register's byte, and writes no byte outside memory. -/
theorem storeRegistersAtI : Obligations.StoreRegistersAtI := by
  intro x s
  refine ⟨_, rfl, s.iPlus_regCount_toNat x, fun k hk hin => exec_storeRegs_get rfl hk hin, ?_⟩
  refine ((SameBut.refl _ s).storeFrom_of_inMemory s.iReg fun i hi hin => ?_).setI (.inl rfl) _
  obtain ⟨k, hk, rfl⟩ := exists_nibble_of_lt_regCount hi
  exact .inr ⟨k, hk, hin, rfl⟩

/-- FX65 leaves the byte at `I + k` in register `k`, if that is inside memory (42 R165). -/
theorem exec_loadRegs_reg {x k : Nibble} {s t : State} (h : exec (.loadRegs x) s = .next t) (hk : k ≤ x)
    (hin : InMemory (s.iPlus k.toNat)) : t.reg k = s.mem.get (s.iPlus k.toNat).toNat := by
  obtain rfl := Host.Outcome.next.inj h
  have hx := x.isLt
  have hkx := BitVec.le_def.1 hk
  have hreg := State.loadFrom_reg_loaded s.iReg s (regCount x) (by unfold regCount; omega) k.toNat
    (by unfold regCount; omega) hin
  rwa [BitVec.ofNat_toNat 4 k, BitVec.setWidth_eq] at hreg

/-- Settles O29: the block load, which draws a free value for a byte outside memory alone. -/
theorem loadRegistersFromI : Obligations.LoadRegistersFromI := by
  intro x s
  refine ⟨_, rfl, s.iPlus_regCount_toNat x, fun k hk hin => exec_loadRegs_reg rfl hk hin, fun hall => ?_,
    exec_sameBut (i := .loadRegs x) rfl⟩
  refine State.loadFrom_draws_inside s.iReg s (regCount x) fun i hi => ?_
  obtain ⟨k, hk, rfl⟩ := exists_nibble_of_lt_regCount hi
  exact hall k hk

/-- A block that ends inside memory lies inside it whole. -/
theorem State.iPlus_inMemory {s : State} {x k : Nibble} (h : s.iReg.toNat + x.toNat < Config.memSize) (hk : k ≤ x) :
    InMemory (s.iPlus k.toNat) := by
  have hkx := BitVec.le_def.1 hk
  rw [Config.memSize_eq] at h
  rw [InMemory, State.iPlus, Config.memSize_eq, BitVec.toNat_add, BitVec.toNat_ofNat]
  omega

/-- Settles O30: both copies meet at the same address for each register. -/
theorem loadGivesBackWhatStoreSaved : Obligations.LoadGivesBackWhatStoreSaved := by
  intro x s t u hin hst hmem hI
  refine ⟨_, rfl, fun k hk => ?_⟩
  have haddr : u.iPlus k.toNat = s.iPlus k.toNat := by rw [State.iPlus, hI, State.iPlus]
  have hk' : InMemory (s.iPlus k.toNat) := State.iPlus_inMemory hin hk
  rw [exec_loadRegs_reg (s := u) rfl hk (by rwa [haddr]), haddr, hmem, exec_storeRegs_get hst hk hk']

end Sys2Proof.Machine

namespace Sys2Proof.Machine

/-! ## Clearing the display (43 R170) -/

/-- Settles O31: the cleared display has no pixel on, and the handler writes the display alone. -/
theorem clearTurnsEveryPixelOff : Obligations.ClearTurnsEveryPixelOff := fun s =>
  ⟨decodeOfEncodeIsTheInstruction .cls rfl, s.setDisp Display.clear, rfl, Display.pixel_clear,
    exec_sameBut (i := .cls) rfl⟩

/-! ## Drawing (43 R171 to R174) -/

/-- What DXYN leaves in the display and in VF: there are row bytes, memory's where they lie inside memory, whose
sprite bits are XORed into the display, and the flag is whether one of them covers a pixel that was 1. -/
theorem exec_drw_spec {x y n : Nibble} {s t : State} (h : exec (.drw x y n) s = .next t) :
    ∃ (rows : Nat → Byte) (collision : Bool),
      (∀ r < n.toNat, InMemory (s.iPlus r) → rows r = s.mem.get (s.iPlus r).toNat) ∧
      (∀ c l, t.pixel c l = (s.pixel c l ^^
        spriteBit rows ((s.reg x).toNat % 64) ((s.reg y).toNat % 32) n.toNat c l)) ∧
      t.reg 0xF = flagByte collision ∧
      (collision = true ↔ ∃ c l,
        spriteBit rows ((s.reg x).toNat % 64) ((s.reg y).toNat % 32) n.toNat c l = true ∧ s.pixel c l = true) := by
  obtain rfl := Host.Outcome.next.inj h
  obtain ⟨rows, hrows, hpix, hcol⟩ :=
    State.drawRows_spec (originX (s.reg x)) (originY (s.reg y)) s.iReg n.toNat s
  exact ⟨rows, _, hrows, hpix, (State.reg_setReg _ vf 0xF _).trans (if_pos rfl), hcol⟩

/-- DXYN with all its rows inside memory draws no free value. -/
theorem exec_drw_draws {x y n : Nibble} {s t : State} (h : exec (.drw x y n) s = .next t)
    (hin : ∀ r < n.toNat, InMemory (s.iPlus r)) : t.draws = s.draws := by
  obtain rfl := Host.Outcome.next.inj h
  exact State.drawRows_draws_inside _ _ s.iReg s n.toNat hin

/-- Settles O32: the XOR turns a pixel off exactly where a sprite bit covers a pixel that was 1. -/
theorem drawXorsTheSprite : Obligations.DrawXorsTheSprite := by
  intro x y n s
  obtain ⟨t, ht⟩ : ∃ t, exec (.drw x y n) s = .next t := ⟨_, rfl⟩
  obtain ⟨rows, collision, hrows, hpix, hflag, hcol⟩ := exec_drw_spec ht
  refine ⟨t, rows, ht, hrows, hpix, fun ⟨c, l, hon, hoff⟩ => ?_, fun hkept => ?_, exec_drw_draws ht, exec_sameBut ht⟩
  · rw [hpix, hon, Bool.true_xor, Bool.not_eq_false'] at hoff
    rw [hflag, hcol.2 ⟨c, l, hoff, hon⟩]
    rfl
  · have hnone : ¬ collision = true := fun hc => by
      obtain ⟨c, l, hbit, hon⟩ := hcol.1 hc
      have hstays := hkept c l hon
      rw [hpix, hbit, hon] at hstays
      exact absurd hstays (by decide)
    rw [hflag, Bool.eq_false_of_not_eq_true hnone]
    rfl

/-! ## Drawing twice (43 R175) -/

/-- Only the rows the sprite has matter to its bits. -/
theorem spriteBit_congr {rows rows' : Nat → Byte} {n : Nat} (h : ∀ r < n, rows r = rows' r) (x0 y0 : Nat) :
    spriteBit rows x0 y0 n = spriteBit rows' x0 y0 n := by
  funext c l
  unfold spriteBit
  by_cases hbox : y0 ≤ l.val ∧ l.val < y0 + n ∧ x0 ≤ c.val ∧ c.val < x0 + 8
  · rw [h (l.val - y0) (by omega)]
  · rw [decide_eq_false hbox, Bool.false_and, Bool.false_and]

/-- The bits DXYN draws when its sprite lies inside memory: those of the bytes at I. -/
def State.drwBit (s : State) (x y n : Nibble) (c : Fin 64) (l : Fin 32) : Bool :=
  spriteBit (fun r => s.mem.get (s.iPlus r).toNat) ((s.reg x).toNat % 64) ((s.reg y).toNat % 32) n.toNat c l

/-- DXYN on a sprite inside memory. -/
theorem exec_drw_inMemory {x y n : Nibble} {s t : State} (h : exec (.drw x y n) s = .next t)
    (hin : ∀ r < n.toNat, InMemory (s.iPlus r)) :
    (∀ c l, t.pixel c l = (s.pixel c l ^^ s.drwBit x y n c l)) ∧
    (t.reg 0xF = 1 ↔ ∃ c l, s.drwBit x y n c l = true ∧ s.pixel c l = true) := by
  obtain ⟨rows, collision, hrows, hpix, hflag, hcol⟩ := exec_drw_spec h
  have hone : flagByte collision = 1 ↔ collision = true := by cases collision <;> decide
  rw [spriteBit_congr (fun r hr => hrows r hr (hin r hr))] at hpix hcol
  exact ⟨hpix, by rw [hflag, hone, hcol]; rfl⟩

/-- DXYN does not move I, so a second draw reads the same addresses. -/
theorem exec_drw_iPlus {x y n : Nibble} {s t : State} (h : exec (.drw x y n) s = .next t) (r : Nat) :
    t.iPlus r = s.iPlus r := by
  have hI : t.iReg = s.iReg := exec_sameBut h .addrReg (by simp [mayChange])
  rw [State.iPlus, hI, State.iPlus]

/-- A draw that leaves its location leaves the sprite's bits: it writes neither I nor memory. -/
theorem exec_drw_keeps_drwBit {x y n : Nibble} {s t : State} (h : exec (.drw x y n) s = .next t)
    (hx : t.reg x = s.reg x) (hy : t.reg y = s.reg y) : t.drwBit x y n = s.drwBit x y n := by
  have hmem (a : Nat) : t.mem.get a = s.mem.get a := exec_sameBut h (.byte a) (by simp [mayChange])
  funext c l
  simp only [State.drwBit, exec_drw_iPlus h, hmem, hx, hy]

/-- Settles O33: both draws XOR the same bits, and a bit covers a lit pixel the second time exactly where it covered
a dark one the first time. -/
theorem drawTwiceRestoresTheDisplay : Obligations.DrawTwiceRestoresTheDisplay := by
  intro x y n s t hin hst hx hy
  obtain ⟨u, htu⟩ : ∃ u, exec (.drw x y n) t = .next u := ⟨_, rfl⟩
  have hin' (r : Nat) (hr : r < n.toNat) : InMemory (t.iPlus r) := (exec_drw_iPlus hst r).symm ▸ hin r hr
  obtain ⟨hpix, -⟩ := exec_drw_inMemory hst hin
  obtain ⟨hpix', hflag⟩ := exec_drw_inMemory htu hin'
  rw [exec_drw_keeps_drwBit hst hx hy] at hpix' hflag
  refine ⟨u, htu, fun c l => ?_, hflag.trans ?_⟩
  · rw [hpix', hpix, Bool.xor_assoc, Bool.xor_self, Bool.xor_false]
  · refine exists_congr fun c => exists_congr fun l => ?_
    change (s.drwBit x y n c l = true ∧ t.pixel c l = true) ↔ (s.pixel c l = false ∧ s.drwBit x y n c l = true)
    rw [hpix]
    cases s.pixel c l <;> cases s.drwBit x y n c l <;> decide

end Sys2Proof.Machine

namespace Sys2Proof.Machine

/-! ## FX0A, the key wait (44 R184) -/

/-- With a key event pending FX0A stores the least key that is up and consumes the latch. -/
theorem exec_ldVxK_pending {s : State} (h : KeyEventPending s) (x : Nibble) :
    ∃ k, exec (.ldVxK x) s = .next ((s.setReg x (zextKey k)).setKa false) ∧ s.keyIsDown k = false ∧
      ∀ j < k, s.keyIsDown j = true := by
  obtain ⟨hka, q, hq⟩ := h
  rcases s.leastUpKey_cases with ⟨k, hk, hup, hleast⟩ | ⟨-, hdown⟩
  · exact ⟨k, by simp only [exec, execLdVxK, hka, hk], hup, hleast⟩
  · exact absurd ((hdown q).symm.trans hq) (by decide)

theorem exec_ldVxK_waiting {s : State} (h : ¬ KeyEventPending s) (x : Nibble) :
    exec (.ldVxK x) s = .next s.rewindPc := by
  rcases execLdVxK_cases x s with ⟨hp, -⟩ | ⟨-, hrewind⟩
  · exact absurd hp h
  · exact hrewind

/-- The rewind undoes decoding's advance, modulo 2^16 (decision D4). -/
theorem State.rewindPc_advancePc (s : State) : s.advancePc.rewindPc = s := by
  simp [State.rewindPc, State.advancePc]

theorem step_ldVxK {x : Nibble} {s : State} (hpc : PcInRange s) (hw : WordAtPc s (encode (.ldVxK x))) :
    step s = exec (.ldVxK x) s.advancePc := by
  rw [step_of_wordAtPc hpc hw, decodeOfEncodeIsTheInstruction (.ldVxK x) rfl]
  rfl

theorem zextKey_toNat (k : Nibble) : (zextKey k).toNat = k.toNat :=
  BitVec.toNat_setWidth_of_le (by decide)

/-- Settles O36: the key search finds a key, since one is up. -/
theorem waitKeyCompletesOnAPendingEvent : Obligations.WaitKeyCompletesOnAPendingEvent := by
  intro x s hp
  obtain ⟨k, hexec, hup, hleast⟩ := exec_ldVxK_pending hp x
  refine ⟨_, k, hexec, hup, hleast, ?_, rfl, ((SameBut.refl _ s).setReg (.inl rfl) _).setKa (.inr rfl) _⟩
  rw [State.setKa_reg, State.reg_setReg, if_pos rfl, zextKey_toNat]

/-- Settles O37: a step advances pc, and the waiting FX0A rewinds it. -/
theorem waitKeyRewindsOtherwise : Obligations.WaitKeyRewindsOtherwise := by
  intro x s hp
  refine ⟨⟨_, exec_ldVxK_waiting hp x, rfl, s.setPc_sameBut _⟩, fun hpc hw => ?_⟩
  have hp' : ¬ KeyEventPending s.advancePc := hp
  rw [step_ldVxK hpc hw, exec_ldVxK_waiting hp' x, State.rewindPc_advancePc]

/-! ### Key events during the wait (44 R188) -/

theorem hostKeyDown_of_keymap {k : Nibble} {code : Byte} (h : (k, code) ∈ Config.keymap) (s : State) :
    hostKeyDown code s = keyDownLogical k s := by
  rw [hostKeyDown, logicalKey_of_keymap _ h]

theorem hostKeyUp_of_keymap {k : Nibble} {code : Byte} (h : (k, code) ∈ Config.keymap) (s : State) :
    hostKeyUp code s = keyUpLogical k s := by
  rw [hostKeyUp, logicalKey_of_keymap _ h]

theorem not_keyEventPending_keyDownLogical (k : Nibble) (s : State) : ¬ KeyEventPending (keyDownLogical k s) :=
  fun ⟨hka, _⟩ => Bool.false_ne_true hka

theorem keyUpLogical_keyIsDown_self (k : Nibble) (s : State) : (keyUpLogical k s).keyIsDown k = false :=
  (s.keyIsDown_setKey k k false).trans (if_pos rfl)

theorem keyEventPending_keyUpLogical (k : Nibble) (s : State) : KeyEventPending (keyUpLogical k s) :=
  ⟨rfl, k, keyUpLogical_keyIsDown_self k s⟩

/-- A step on a pending FX0A completes past it with the least key that is up. -/
theorem step_ldVxK_pending {x : Nibble} {s : State} (hpc : PcInRange s) (hw : WordAtPc s (encode (.ldVxK x)))
    (hp : KeyEventPending s) : ∃ t j, step s = .next t ∧ t.pc = s.pc + 2 ∧ t.ka = false ∧
      (t.reg x).toNat = j.toNat ∧ s.keyIsDown j = false ∧ ∀ i < j, s.keyIsDown i = true := by
  obtain ⟨t, j, hexec, hup, hleast, hreg, hka, hframe⟩ := waitKeyCompletesOnAPendingEvent x s.advancePc hp
  exact ⟨t, j, (step_ldVxK hpc hw).trans hexec, hframe .pc (by simp), hka, hreg, hup, hleast⟩

/-- Settles O38: a press lowers the latch, so FX0A waits; a release raises it with its own key up, so FX0A completes. -/
theorem releaseEndsTheWaitAndPressDoesNot : Obligations.ReleaseEndsTheWaitAndPressDoesNot := by
  intro x s k code hpc hw hk
  rw [hostKeyDown_of_keymap hk, hostKeyUp_of_keymap hk]
  obtain ⟨-, hwait⟩ := waitKeyRewindsOtherwise x _ (not_keyEventPending_keyDownLogical k s)
  obtain ⟨t, j, hstep, htpc, htka, htreg, hup, hleast⟩ :=
    step_ldVxK_pending (s := keyUpLogical k s) hpc hw (keyEventPending_keyUpLogical k s)
  refine ⟨hwait hpc hw, t, j, hstep, htpc, htka, htreg, ?_, fun i hi => ?_⟩
  · refine or_iff_not_imp_left.2 fun hjk => ?_
    rwa [keyUpLogical_keyIsDown_other s hjk] at hup
  · have hdown := hleast i hi
    have hik : i ≠ k := by
      rintro rfl
      rw [keyUpLogical_keyIsDown_self] at hdown
      exact Bool.false_ne_true hdown
    exact ⟨hik, keyUpLogical_keyIsDown_other s hik ▸ hdown⟩

/-! ## Key tests (44 R181, R182, R187) -/

theorem keySelect_toNat (v : Byte) : (keySelect v).toNat = v.toNat % 16 := by
  simp [keySelect]

/-- Settles O17: the tested key is the one of VX's low nibble, and a skip writes pc alone. -/
theorem skipTestsTheSelectedKey : Obligations.SkipTestsTheSelectedKey := by
  intro x s k hk
  obtain rfl : k = keySelect (s.reg x) := BitVec.eq_of_toNat_eq (hk.trans (keySelect_toNat _).symm)
  refine ⟨⟨_, rfl, s.skipIf_pc _, exec_sameBut (i := .skp x) rfl⟩, _, rfl, ?_, exec_sameBut (i := .sknp x) rfl⟩
  simp only [State.skipIf_pc, Bool.not_eq_true']

/-! ## The random byte (44 R180) -/

/-- Settles O34: the handler draws one free value and stores it masked, whatever the value is. -/
theorem randomIsAMaskedFreeByte : Obligations.RandomIsAMaskedFreeByte := by
  intro x nn s
  have hreg : (s.drawRand.2.setReg x (s.drawRand.1 &&& nn)).reg x = Config.randByte s.draws &&& nn :=
    (s.drawRand.2.reg_setReg x x _).trans (if_pos rfl)
  refine ⟨_, rfl, hreg, ?_, rfl, exec_sameBut (i := .rnd x nn) rfl⟩
  rw [hreg, BitVec.and_assoc, BitVec.and_not_self]
  exact BitVec.and_zero

/-! ## Timers (44 R183, R185, R186) -/

/-- Settles O35: each handler is one update, of VX, of DT or of ST. -/
theorem timerInstructionsCopy : Obligations.TimerInstructionsCopy := fun x s =>
  ⟨⟨_, rfl, s.setReg_outcome x s.dt⟩,
    ⟨_, rfl, rfl, exec_sameBut (i := .ldDtVx x) rfl⟩,
    _, rfl, rfl, exec_sameBut (i := .ldStVx x) rfl⟩

end Sys2Proof.Machine

namespace Sys2Proof.Machine

/-! ## One step at pc (45 R191) -/

/-- Settles O6: the step executes the word at pc, and decoding inverts encoding. -/
theorem stepRunsTheDecodedInstruction : Obligations.StepRunsTheDecodedInstruction := by
  intro s i hi hpc hw
  rw [step_of_wordAtPc hpc hw, decodeOfEncodeIsTheInstruction i hi]

/-! ## The raw write (45 R192) -/

theorem hostWrite_ok {a : Addr} {bs : List Byte} (h : a.toNat + bs.length ≤ Config.memSize) (s : State) :
    hostWrite a bs s = (s.setMem (s.mem.putAll a.toNat bs), .ok) := if_neg (Nat.not_lt.2 h)

theorem hostWrite_rejected {a : Addr} {bs : List Byte} (h : a.toNat + bs.length > Config.memSize) (s : State) :
    hostWrite a bs s = (s, .rejected) := if_pos h

theorem Memory.get_putAll_inside {a : Nat} {bs : List Byte} (hlen : a + bs.length ≤ Config.memSize) (m : Memory)
    {i : Nat} (hi : i < bs.length) : (m.putAll a bs).get (a + i) = bs[i] := by
  rw [Memory.get_putAll bs m a (a + i) hlen, dif_pos ⟨by omega, by omega⟩]
  simp only [Nat.add_sub_cancel_left]

theorem Memory.get_putAll_outside {a : Nat} {bs : List Byte} (hlen : a + bs.length ≤ Config.memSize) (m : Memory)
    {b : Nat} (hb : ¬ ∃ i < bs.length, b = a + i) : (m.putAll a bs).get b = m.get b := by
  rw [Memory.get_putAll bs m a b hlen, dif_neg]
  exact fun ⟨hle, hlt⟩ => hb ⟨b - a, hlt, by omega⟩

/-- Settles O39: the boundary decides the branch; the bytes of an accepted write are those of the loop. -/
theorem rawWriteIsAllOrNothing : Obligations.RawWriteIsAllOrNothing := by
  intro a bs s
  refine ⟨fun hlen => ⟨_, hostWrite_ok hlen s, fun i hi => Memory.get_putAll_inside hlen s.mem hi, ?_⟩,
    fun hlen => hostWrite_rejected hlen s⟩
  intro p hp
  cases p with
  | byte b => exact Memory.get_putAll_outside hlen s.mem fun ⟨i, hi, hb⟩ => hp ⟨i, hi, congrArg Part.byte hb⟩
  | _ => rfl

/-! ## The start address (45 R197) -/

theorem hostSetStart_ok {a : Addr} (h : InMemory a) (s : State) : hostSetStart a s = (s.setPc a, .ok) :=
  if_neg (Nat.not_le.2 h)

theorem hostSetStart_rejected {a : Addr} (h : ¬ InMemory a) (s : State) : hostSetStart a s = (s, .rejected) :=
  if_pos (Nat.not_lt.1 h)

/-- Settles O43: an accepted address is one write of pc. -/
theorem setStartWritesPcAlone : Obligations.SetStartWritesPcAlone := fun a s =>
  ⟨fun h => ⟨_, hostSetStart_ok h s, rfl, s.setPc_sameBut a⟩, fun h => hostSetStart_rejected h s⟩

/-! ## Key events (45 R194, R195) -/

theorem SameBut.setKey {C : Part → Prop} {s t : State} (h : SameBut C s t) {k : Nibble} (hk : C (.key k))
    (b : Bool) : SameBut C s (t.setKey k b) := by
  refine h.trans fun p hp => ?_
  cases p with
  | key q =>
    have hq : q ≠ k := fun e => hp (e ▸ hk)
    simp [Same, hq]
  | _ => rfl

/-- Both key events of a logical key: one write of the key, one of the latch. -/
theorem State.setKey_setKa_outcome (s : State) (k : Nibble) (down up : Bool) :
    ((s.setKey k down).setKa up).keyIsDown k = down ∧ ((s.setKey k down).setKa up).ka = up ∧
    SameBut (fun p => p = .key k ∨ p = .latch) s ((s.setKey k down).setKa up) :=
  ⟨(s.keyIsDown_setKey k k down).trans (if_pos rfl), rfl,
    ((SameBut.refl _ s).setKey (.inl rfl) down).setKa (.inr rfl) up⟩

/-- Settles O41: a mapped code reaches its logical key's event, any other code none. -/
theorem keyEventsWriteKeyAndLatch : Obligations.KeyEventsWriteKeyAndLatch := by
  intro code s
  refine ⟨fun k hk => ?_, fun hno => ⟨?_, ?_⟩⟩
  · rw [hostKeyDown_of_keymap hk, hostKeyUp_of_keymap hk]
    exact ⟨s.setKey_setKa_outcome k true false, s.setKey_setKa_outcome k false true⟩
  · exact (hostKeyDown_cases code s).resolve_left fun ⟨k, hk, _⟩ => hno k hk
  · exact (hostKeyUp_cases code s).resolve_left fun ⟨k, hk, _⟩ => hno k hk

/-! ## The framebuffer read (45 R196) -/

theorem hostReadDisplay_length (xo yo len : Nat) (s : State) :
    (hostReadDisplay xo yo len s).length = readCount xo yo len := by
  rw [hostReadDisplay, List.length_map, List.length_range]

theorem hostReadDisplay_getElem? (xo yo : Nat) {len j : Nat} (s : State) (hj : j < readCount xo yo len) :
    (hostReadDisplay xo yo len s)[j]? = some (s.linearPixel (readStart xo yo + j)) := by
  rw [hostReadDisplay, List.getElem?_map, List.getElem?_range hj]
  rfl

theorem fillBuffer_getElem?_of_length_le {buffer pixels : List Bool} {j : Nat} (h : pixels.length ≤ j) :
    (fillBuffer buffer pixels)[j]? = buffer[j]? := by
  rw [fillBuffer, List.getElem?_append_right h, List.getElem?_drop, Nat.add_sub_cancel' h]

/-- Settles O42: a position on the grid is below the clamp, so it is one of the positions read. -/
theorem readDisplayIsARowMajorSnapshot : Obligations.ReadDisplayIsARowMajorSnapshot := by
  intro xo yo len s
  refine ⟨_, rfl, hostReadDisplay_length xo yo len s, fun j c l hj hpos => ?_,
    fun _ _ => fillBuffer_getElem?_of_length_le⟩
  have hpos' : readStart xo yo + j = l.val * 64 + c.val := hpos
  have hcount : j < readCount xo yo len := Nat.lt_min.2 ⟨hj, by simp only [Config.dispW_eq, Config.dispH_eq]; omega⟩
  rw [hostReadDisplay_getElem? xo yo s hcount, hpos', State.linearPixel_eq]

/-! ## The timers (45 R193) -/

theorem hostTick_sameBut (s : State) : SameBut (fun p => p = .delayTimer ∨ p = .soundTimer) s (hostTick s) :=
  ((SameBut.refl _ s).setDt (.inl rfl) _).setSt (.inr rfl) _

/-- Ticks add up: each lowers both timers by one, held at 0, and leaves the rest. -/
theorem hostTick_iterate (n : Nat) (s : State) :
    ((hostTick^[n]) s).dt.toNat = s.dt.toNat - n ∧ ((hostTick^[n]) s).st.toNat = s.st.toNat - n ∧
    SameBut (fun p => p = .delayTimer ∨ p = .soundTimer) s ((hostTick^[n]) s) := by
  induction n with
  | zero => exact ⟨rfl, rfl, .refl _ s⟩
  | succ n ih =>
    obtain ⟨hdt, hst, hframe⟩ := ih
    rw [Function.iterate_succ_apply']
    refine ⟨?_, ?_, hframe.trans (hostTick_sameBut _)⟩
    · exact (countDown_toNat _).trans (by rw [hdt, Nat.sub_sub])
    · exact (countDown_toNat _).trans (by rw [hst, Nat.sub_sub])

theorem eq_ldDtVx_of_mayChange {i : Instr} {s : State} (h : mayChange i s .delayTimer) : ∃ x, i = .ldDtVx x := by
  cases i <;> simp [mayChange] at h ⊢

theorem eq_ldStVx_of_mayChange {i : Instr} {s : State} (h : mayChange i s .soundTimer) : ∃ x, i = .ldStVx x := by
  cases i <;> simp [mayChange] at h ⊢

/-- Of the instructions FX15 alone moves the delay timer, to VX (44 R185). -/
theorem exec_dt {i : Instr} {s t : State} (h : exec i s = .next t) (hdt : t.dt ≠ s.dt) :
    ∃ x, i = .ldDtVx x ∧ t.dt = s.reg x := by
  obtain ⟨x, rfl⟩ := eq_ldDtVx_of_mayChange (by_contra fun hm => hdt (exec_sameBut h .delayTimer hm))
  obtain rfl := Host.Outcome.next.inj h
  exact ⟨x, rfl, rfl⟩

/-- Of the instructions FX18 alone moves the sound timer, to VX (44 R186). -/
theorem exec_st {i : Instr} {s t : State} (h : exec i s = .next t) (hst : t.st ≠ s.st) :
    ∃ x, i = .ldStVx x ∧ t.st = s.reg x := by
  obtain ⟨x, rfl⟩ := eq_ldStVx_of_mayChange (by_contra fun hm => hst (exec_sameBut h .soundTimer hm))
  obtain rfl := Host.Outcome.next.inj h
  exact ⟨x, rfl, rfl⟩

theorem step_of_perform_step {s t : State} {r : Reply} (h : perform .step s = .next (t, r)) : step s = .next t := by
  simp only [perform] at h
  split at h
  case h_1 u hu =>
    obtain rfl : u = t := state_of_next_eq h
    exact hu
  all_goals cases h

/-- Everything an operation can do to the timers: it is a step or a tick, or it leaves both alone. -/
theorem perform_timers_cases {o : Op} {s t : State} {r : Reply} (h : perform o s = .next (t, r)) :
    (o = .step ∧ step s = .next t) ∨ o = .tickTimers ∨ (t.dt = s.dt ∧ t.st = s.st) := by
  cases o with
  | step => exact .inl ⟨rfl, step_of_perform_step h⟩
  | tickTimers => exact .inr (.inl rfl)
  | write a bs =>
    obtain rfl : (hostWrite a bs s).1 = t := state_of_next_eq h
    rcases Nat.lt_or_ge Config.memSize (a.toNat + bs.length) with hlen | hlen
    · rw [hostWrite_rejected hlen]; exact .inr (.inr ⟨rfl, rfl⟩)
    · rw [hostWrite_ok hlen]; exact .inr (.inr ⟨rfl, rfl⟩)
  | keyDown code =>
    obtain rfl : hostKeyDown code s = t := state_of_next_eq h
    rcases hostKeyDown_cases code s with ⟨k, -, e⟩ | e <;> rw [e] <;> exact .inr (.inr ⟨rfl, rfl⟩)
  | keyUp code =>
    obtain rfl : hostKeyUp code s = t := state_of_next_eq h
    rcases hostKeyUp_cases code s with ⟨k, -, e⟩ | e <;> rw [e] <;> exact .inr (.inr ⟨rfl, rfl⟩)
  | readDisplay xo yo len =>
    obtain rfl : s = t := state_of_next_eq h
    exact .inr (.inr ⟨rfl, rfl⟩)
  | setStart a =>
    obtain rfl : (hostSetStart a s).1 = t := state_of_next_eq h
    by_cases ha : InMemory a
    · rw [hostSetStart_ok ha]; exact .inr (.inr ⟨rfl, rfl⟩)
    · rw [hostSetStart_rejected ha]; exact .inr (.inr ⟨rfl, rfl⟩)

/-- Settles O40: ticks by induction; of the other operations a step alone moves a timer, by FX15 or FX18. -/
theorem timersFallOnlyByTicks : Obligations.TimersFallOnlyByTicks := by
  refine ⟨hostTick_iterate, fun o s t r h => ?_⟩
  rcases perform_timers_cases h with ⟨rfl, hstep⟩ | rfl | ⟨hdt, hst⟩
  · obtain ⟨n, hi⟩ := step_cases hstep
    have hdt := exec_dt hi
    have hst := exec_st hi
    exact ⟨fun hne => .inr ⟨rfl, hdt hne⟩, fun hne => .inr ⟨rfl, hst hne⟩⟩
  · exact ⟨fun _ => .inl rfl, fun _ => .inl rfl⟩
  · exact ⟨fun hne => absurd hdt hne, fun hne => absurd hst hne⟩

end Sys2Proof.Machine

namespace Sys2Proof.Machine

/-! ## Every operation completes (60_exceptions R210, R211) -/

/-- No handler stops: FX0A answers a state whether it completes or waits, and every other handler answers one
outright. -/
theorem exec_completes (i : Instr) (s : State) : ∃ t, exec i s = .next t := by
  cases i
  case ldVxK x =>
    rcases execLdVxK_cases x s with ⟨-, _, hcompletes⟩ | ⟨-, hwaits⟩
    · exact ⟨_, hcompletes⟩
    · exact ⟨_, hwaits⟩
  all_goals exact ⟨_, rfl⟩

theorem step_completes (s : State) : ∃ t, step s = .next t :=
  exec_completes (decode s.fetch.1) s.fetch.2.advancePc

theorem perform_step_of_step {s t : State} (h : step s = .next t) : perform .step s = .next (t, .none) := by
  simp only [perform, h]

/-- Of the host's operations only a step runs a handler; the others answer outright. -/
theorem perform_completes (o : Op) (s : State) : ∃ t r, perform o s = .next (t, r) := by
  cases o
  case step =>
    obtain ⟨t, ht⟩ := step_completes s
    exact ⟨t, .none, perform_step_of_step ht⟩
  all_goals exact ⟨_, _, rfl⟩

theorem performAll_cons_of_perform {o : Op} {s t : State} {r : Reply} (h : perform o s = .next (t, r))
    (os : List Op) : performAll (o :: os) s = performAll os t := by
  simp only [performAll, h]

theorem performAll_completes (os : List Op) (s : State) : ∃ t, performAll os s = .next t := by
  induction os generalizing s with
  | nil => exact ⟨s, rfl⟩
  | cons o os ih =>
    obtain ⟨u, r, hu⟩ := perform_completes o s
    rw [performAll_cons_of_perform hu]
    exact ih u

/-- Settles O8: no handler stops, so no step, no operation and, by induction on the schedule, no run does. -/
theorem everyOperationCompletes : Obligations.EveryOperationCompletes :=
  ⟨step_completes, perform_completes, performAll_completes⟩

end Sys2Proof.Machine

namespace Sys2Proof.Machine

/-! ## Reset (70_reset R230, R231, R233) -/

/-- Before any write, the bytes from the font base on read as the font table (R233). -/
theorem Memory.unlisted_fontBase_add {i : Nat} (hi : i < Config.fontTable.length) :
    Memory.unlisted (Config.fontBase.toNat + i) = Config.fontTable[i] := by
  rw [Memory.unlisted, if_pos (Nat.le_add_right _ _), Nat.add_sub_cancel_left, List.getElem?_eq_getElem hi,
    Option.getD_some]

theorem State.resetAt_sp_toNat (start : Addr) (h : Config.ValidStart start) :
    (State.resetAt start h).sp.toNat = start.toNat - 1 :=
  BitVec.toNat_sub_of_le (BitVec.le_def.2 h.1)

/-- Settles O44: no byte of memory is listed after reset, so the font reads from the table; a start address is at
least 1, so one less does not wrap. -/
theorem resetSetsPcSpAndFont : Obligations.ResetSetsPcSpAndFont := by
  refine ⟨rfl, fun start h => ⟨rfl, State.resetAt_sp_toNat start h, fun i hi => ?_⟩⟩
  have hlen : i < Config.fontTable.length := hi
  rw [State.resetAt_mem, Memory.get_nil, Memory.unlisted_fontBase_add hlen, List.getElem?_eq_getElem hlen]

/-! ## Boot (70_reset R232, R235) -/

/-- The first two bytes of an image written at pc are the word a fetch reads there (45 R192, 20_memory R64). -/
theorem wordAtPc_setMem_putAll (s : State) {b0 b1 : Byte} {rest : List Byte}
    (hlen : s.pc.toNat + (b0 :: b1 :: rest).length ≤ Config.memSize) :
    WordAtPc (s.setMem (s.mem.putAll s.pc.toNat (b0 :: b1 :: rest))) (b0 ++ b1) := by
  have hnext : (s.pc + 1).toNat = s.pc.toNat + 1 := by
    rw [List.length_cons, List.length_cons, Config.memSize_eq] at hlen
    bv_omega
  rw [WordAtPc, hiByte_append, loByte_append, State.setMem_pc, hnext]
  exact ⟨Memory.get_putAll_inside hlen s.mem (i := 0) (Nat.succ_pos _),
    Memory.get_putAll_inside hlen s.mem (i := 1) (Nat.succ_lt_succ (Nat.succ_pos _))⟩

/-- Settles O46: 3584 bytes fit from the start address on, and an image that fits puts its first word at pc. -/
theorem bootRunsTheLoadedProgram : Obligations.BootRunsTheLoadedProgram := by
  intro b0 b1 rest
  have hsize : Config.startAddr.toNat + (b0 :: b1 :: rest).length = rest.length + 514 := Nat.add_comm 512 _
  refine ⟨fun hrest => ?_, fun hrest => hostWrite_rejected (by rw [hsize, Config.memSize_eq]; omega) State.reset⟩
  have hfits : Config.startAddr.toNat + (b0 :: b1 :: rest).length ≤ Config.memSize := by
    rw [hsize, Config.memSize_eq]; omega
  have hpc : PcInRange State.reset := by decide
  exact ⟨_, hostWrite_ok hfits State.reset, step_of_wordAtPc hpc (wordAtPc_setMem_putAll State.reset hfits)⟩

end Sys2Proof.Machine
